-- ==== Sys2Proof/Word.lean ====
section
/-! DEFINITION. The machine's units of data (spec/00_scope.md R5, R6; spec/43_trap_and_system.md R152):
the 16-bit word, the 8-bit character, and the 3-bit register number of an instruction field. -/

namespace Sys2Proof

/-- The unit of storage and transfer: an unsigned 16-bit word (R5). Its `+` wraps modulo 2^16 (R6). -/
abbrev Word := BitVec 16

/-- A character: a byte, 0..255 (R152). Bytes exist on the keyboard queue and the console only (R51, R58). -/
abbrev Byte := BitVec 8

/-- A register field of an instruction: 3 bits naming R0..R7, every value legal (R83). -/
abbrev RegNo := BitVec 3

end Sys2Proof
end

