-- ==== Sys2Proof/Config.lean ====
section
/-! DEFINITION. The implementation parameters of spec/00_scope.md R4. The spec fixes every one of them;
its two OPEN parameters, the images and the keyboard arrivals, are inputs of the host
(`Machine/HostInterface.lean`). The spec leaves no value free, so there is no opaque constant here. -/

namespace Sys2Proof.Config

/-- Number of memory words, MEMWORDS (R4, R29). -/
def memWords : Nat := 65536

/-- The reset value of `pc`, PC_RESET (R4, R212). -/
def pcReset : Word := 0x3000

/-- The three one-hot values of `cond`: bit 2 is N, bit 1 is Z, bit 0 is P (R25). -/
def flagN : BitVec 3 := 0b100

/-- See `flagN`. -/
def flagZ : BitVec 3 := 0b010

/-- See `flagN`. -/
def flagP : BitVec 3 := 0b001

/-- The reset value of `cond`, COND_RESET (R4, R37). -/
def condReset : BitVec 3 := flagZ

/-- The keyboard status register's address (R4, R192). -/
def kbsrAddr : Word := 0xFE00

/-- The keyboard data register's address (R4, R192). -/
def kbdrAddr : Word := 0xFE02

/-- The ready bit of KBSR (R4, R35). -/
def kbsrReady : Word := 0x8000

/-- The link register that JSR, JSRR and TRAP write (R22). -/
def linkReg : RegNo := 7

/-- The argument and result register of the trap services (R22). -/
def argReg : RegNo := 0

end Sys2Proof.Config
end

