-- ==== Sys2Proof/Machine/Bits.lean ====
section
/-! DEFINITION. The bit-field helpers of the machine: sign and zero extension (spec/00_scope.md R7, R8)
and the two characters of a word (spec/43_trap_and_system.md R152, R157). -/

namespace Sys2Proof.Machine

/-- `sext_N` of R7, on the N-bit field itself: bits 15..N of the result are copies of bit N-1. -/
def sext {n : Nat} (field : BitVec n) : Word := field.signExtend 16

/-- `zext_16` of R8. -/
def zext16 (b : Byte) : Word := b.setWidth 16

/-- `w[7:0]`. -/
def lowByte (w : Word) : Byte := w.extractLsb' 0 8

/-- `w[15:8]`. -/
def highByte (w : Word) : Byte := w.extractLsb' 8 8

/-- The word with `hi` in bits 15..8 and `lo` in bits 7..0: how an image's bytes make words (R214). -/
def wordOfBytes (hi lo : Byte) : Word := hi ++ lo

end Sys2Proof.Machine
end

