-- ==== Sys2Proof/Machine/State.lean ====
section
/-! DEFINITION. The state of the machine (spec/10_state.md R20 to R37), the ways a step can stop, and the
state after reset (R37). -/

namespace Sys2Proof.Machine

/-- One listed memory cell: a word address and the word there. The smallest unit of this machine's memory
is the 16-bit word and it has no bytes (R51, R58), so a cell holds a word (DESIGN CHOICE, log 1). -/
abbrev Cell := Nat × Word

/-- Memory (R29, R50): the listed cells, addresses strictly rising, none holding the 0x0000 that an
unlisted address reads as (R37, log 2). `Memory.wf` of `Machine/Ops.lean` says the form holds. -/
abbrev Memory := List Cell

/-- The causes of a fault (spec/60_exceptions.md R180). -/
inductive Cause where
  /-- Any word with opcode 1000. -/
  | rtiUnsupported
  /-- Any word with opcode 1101. -/
  | reservedOpcode
  /-- A TRAP whose vector is outside 0x20..0x25. -/
  | unknownTrapVector
  deriving DecidableEq, Repr

/-- The run state (R30). -/
inductive Run where
  /-- The core takes steps. -/
  | running
  /-- The HALT service has run: the good end of a run (R12). -/
  | halted
  /-- A fault has been raised by the instruction word `ir` (R181). -/
  | faulted (cause : Cause) (ir : Word)
  deriving DecidableEq, Repr

/-- Whether the core is held inside a trap service, waiting for a keyboard byte (R31). -/
inductive TrapPhase where
  /-- Between instructions. -/
  | none
  /-- Held inside GETC (R153). -/
  | waitGetc
  /-- Held inside IN, its prompt written (R156). -/
  | waitIn
  deriving DecidableEq, Repr

/-- Everything the spec gives the machine (R20 to R36); the word being executed is not state (R34). -/
structure State where
  /-- R0..R7 (R20). -/
  regs : Vector Word 8
  /-- The program counter (R23). Inside an instruction it is already incremented (R24). -/
  pc : Word
  /-- The condition codes N, Z, P, bits 2, 1, 0 (R25). -/
  cond : BitVec 3
  /-- The 65,536 words of memory, KBSR and KBDR among them (R29, R35, R36). -/
  mem : Memory
  /-- The run state (R30). -/
  run : Run
  /-- The hold of GETC and IN (R31). -/
  trapPhase : TrapPhase
  /-- The keyboard byte queue, its head first (R32). -/
  kbd : List Byte
  /-- The console output trace, oldest byte first (R33). -/
  conOut : List Byte
  deriving DecidableEq, Repr

/-- The ways the core has no next state. None stands for an effect the spec gives: a fault of the spec
(R180) is a NEXT state whose `run` is faulted (log 3). -/
inductive Fault where
  /-- Raised by `step` alone, in a state whose `run` is HALTED: the core takes no step there (R30).
  Safe (log 3). -/
  | halted
  /-- Raised by `step` alone, in a state whose `run` is FAULTED: the core takes no step there (R181).
  Safe (log 3). -/
  | faulted (cause : Cause) (ir : Word)
  /-- Raised by `step` alone, in a state held inside GETC or IN with no byte on the keyboard queue: no core
  step is enabled until the host delivers one (spec/93_implementation_defined.md U6). The machine has NOT
  gone wrong: `State.deliverKey` enables the next step. Safe (log 4). -/
  | heldForKey
  /-- Raised by the string walks of PUTS and PUTSP if they never read a zero word (R155, U9: "`stuck` inside
  the step"). With the finitely many bytes of `kbd` this does not happen (log 6). Safe. -/
  | endlessString
  deriving DecidableEq, Repr

/-- Refusals. -/
inductive Refusal where
  /-- For an arm of `exec` whose instruction has no meaning in this model, by its mnemonic. Every
  instruction has one, so nothing raises it. Safe. -/
  | notModelled (mnemonic : String)
  deriving DecidableEq, Repr

/-- The state at the first fetch with no image loaded and no byte delivered (R37, R213): every value is the
spec's but the empty keyboard queue, which is the host's (DESIGN CHOICE, log 12). A loaded machine is
`State.launch` of `Machine/HostInterface.lean`. -/
def State.reset : State where
  regs := Vector.replicate 8 0
  pc := Config.pcReset
  cond := Config.condReset
  mem := []
  run := .running
  trapPhase := .none
  kbd := []
  conOut := []

end Sys2Proof.Machine
end

