-- ==== Sys2Proof/Machine/Ops.lean ====
section
/-! DEFINITION. The named operations over memory, registers, the keyboard queue and the console
(spec/00_scope.md R9), the keyboard latch, the fetch, taking a fault and entering a trap. Everything the
machine does goes through them. -/

namespace Sys2Proof.Machine

/-! ### Memory as a list of cells -/

/-- What an address that no cell lists reads as: memory is zero at reset (R37, log 2). -/
def Memory.unlisted : Word := 0

/-- The canonical form: addresses strictly rising and inside the address space, no cell holding what an
unlisted address reads as. -/
abbrev Memory.wf (m : Memory) : Prop :=
  m.Pairwise (fun c d => c.1 < d.1) ∧ ∀ c ∈ m, c.1 < Config.memWords ∧ c.2 ≠ Memory.unlisted

/-- The word stored at an address. -/
def Memory.read : Memory → Nat → Word
  | [], _ => Memory.unlisted
  | (b, v) :: m, a => if b = a then v else Memory.read m a

/-- The memory without a cell for an address. -/
def Memory.erase (m : Memory) (a : Nat) : Memory := m.filter (fun c => c.1 ≠ a)

/-- A cell put in its place by address. -/
def Memory.insert : Memory → Nat → Word → Memory
  | [], a, v => [(a, v)]
  | c :: m, a, v => if a < c.1 then (a, v) :: c :: m else c :: Memory.insert m a v

/-- The memory with the word `v` at address `a` and every other address as before; it keeps the canonical
form, so a write of what an unlisted address reads as removes the cell. -/
def Memory.write (m : Memory) (a : Nat) (v : Word) : Memory :=
  if v = Memory.unlisted then m.erase a else (m.erase a).insert a v

/-! ### Registers and the other fields -/

/-- `x[r]` (R20). -/
def State.readReg (s : State) (r : RegNo) : Word := s.regs[r.toNat]'r.isLt

/-- `x[r] <- v` (R20). No register is hardwired. -/
def State.writeReg (s : State) (r : RegNo) (v : Word) : State :=
  { s with regs := s.regs.set r.toNat v r.isLt }

/-- `pc <- t` (R23). -/
def State.setPc (s : State) (t : Word) : State := { s with pc := t }

/-- Write the condition-code register. -/
def State.setCond (s : State) (c : BitVec 3) : State := { s with cond := c }

/-- `run <- r` (R30). -/
def State.setRun (s : State) (r : Run) : State := { s with run := r }

/-- `trap_phase <- p` (R31). -/
def State.setTrapPhase (s : State) (p : TrapPhase) : State := { s with trapPhase := p }

/-- The keyboard queue replaced, by the takers and by the host. -/
def State.setKbd (s : State) (q : List Byte) : State := { s with kbd := q }

/-- `ConOut` of several bytes in order (R33). -/
def State.emit (s : State) (bs : List Byte) : State := { s with conOut := s.conOut ++ bs }

/-- `KbdTake()` where `KbdAvail()`: the head byte and the state without it; nothing where the queue is
empty (R32). The three takers, the poll, GETC and IN, all use it. -/
def State.kbdTake (s : State) : Option (Byte × State) :=
  match s.kbd with
  | [] => none
  | b :: rest => some (b, s.setKbd rest)

/-! ### Memory access -/

/-- `mem[a]`: the stored word, with no side effect. -/
def State.peek (s : State) (a : Word) : Word := s.mem.read a.toNat

/-- `MemWrite(a, 1, v)` (R52): it only stores, at every address. -/
def State.memWrite (s : State) (a : Word) (v : Word) : State :=
  { s with mem := s.mem.write a.toNat v }

/-- `Poll()` (R54): a ready byte is consumed into KBDR and KBSR says ready; else KBSR says not ready. -/
def State.poll (s : State) : State :=
  match s.kbdTake with
  | some (b, s') => (s'.memWrite Config.kbsrAddr Config.kbsrReady).memWrite Config.kbdrAddr (zext16 b)
  | none => s.memWrite Config.kbsrAddr 0

/-- The state `MemRead(a, 1)` leaves (R53): a read of KBSR polls, any other read changes nothing. -/
def State.afterRead (s : State) (a : Word) : State := if a = Config.kbsrAddr then s.poll else s

/-- The word `MemRead(a, 1)` returns (R53): the word at `a` after the poll, if any. -/
def State.readValue (s : State) (a : Word) : Word := (s.afterRead a).peek a

/-! ### Fetch -/

/-- The instruction word a step fetches: a `MemRead` at `pc` (R11, R55). -/
def State.fetchWord (s : State) : Word := s.readValue s.pc

/-- The state an instruction starts from: the fetch done and `pc` incremented modulo 2^16 (R11, R24). -/
def State.afterFetch (s : State) : State := (s.afterRead s.pc).setPc (s.pc + 1)

/-! ### Faults and trap entry -/

/-- The codes of the causes (R180). They are labels: nothing in the machine reads them. -/
def Cause.code : Cause → Nat
  | .rtiUnsupported => 1
  | .reservedOpcode => 2
  | .unknownTrapVector => 3

/-- `raise Fault(cause, ir)` (R181): the run state becomes FAULTED and nothing else changes; no handler, no
vector, no saved register. There is no return from a fault (R181), so no operation stands beside it. -/
def State.raiseFault (s : State) (cause : Cause) (ir : Word) : State := s.setRun (.faulted cause ir)

/-- TRAP entry (R150, R187): R7 takes the incremented `pc`, and nothing else is saved or changed. The return
is implicit (R188): the service ends and `pc` is where it was. -/
def State.trapEntry (s : State) : State := s.writeReg Config.linkReg s.pc

end Sys2Proof.Machine
end

