-- ==== Sys2Proof/Machine/Flags.lean ====
section
/-! DEFINITION. The condition codes: their one computation and their one reader (spec/10_state.md R25 to
R27, spec/42_control.md R140). -/

namespace Sys2Proof.Machine

/-- The flag a word gives (R26): N where bit 15 is set, Z where the word is zero, P otherwise. -/
def condOf (v : Word) : BitVec 3 :=
  if v.msb then Config.flagN else if v = 0 then Config.flagZ else Config.flagP

/-- `setcc(v)` (R26). -/
def State.setcc (s : State) (v : Word) : State := s.setCond (condOf v)

/-- `x[DR] <- v` and then `setcc(v)`: the end of every instruction that updates the flags (R27). -/
def State.writeDest (s : State) (dr : RegNo) (v : Word) : State := (s.writeReg dr v).setcc v

/-- Whether BR with this mask branches: `(ir[11:9] & cond) != 0` (R140). -/
def State.brTaken (s : State) (nzp : BitVec 3) : Bool := nzp &&& s.cond != 0

end Sys2Proof.Machine
end

