-- ==== Sys2Proof/Machine/Operands.lean ====
section
/-! DEFINITION. How operands and effective addresses are assembled (spec/30_encoding.md R84,
spec/41_load_store.md R127, spec/42_control.md R145). Every sum wraps modulo 2^16 (R6, R62), and `pc` is the
incremented one (R24). -/

namespace Sys2Proof.Machine

/-- The immediate operand of ADD and AND: `sext_5(ir[4:0])` (R84). -/
def immOperand (imm5 : BitVec 5) : Word := sext imm5

/-- `pc + sext_9(PCoff9)`: BR, LD, ST, LDI, STI, LEA (R127, R140). -/
def State.pcRel9 (s : State) (off9 : BitVec 9) : Word := s.pc + sext off9

/-- `pc + sext_11(PCoff11)`: JSR (R142). -/
def State.pcRel11 (s : State) (off11 : BitVec 11) : Word := s.pc + sext off11

/-- `x[BaseR] + sext_6(off6)`: LDR, STR (R127). -/
def State.baseOff (s : State) (base : RegNo) (off6 : BitVec 6) : Word := s.readReg base + sext off6

end Sys2Proof.Machine
end

