-- ==== Sys2Proof/Machine/Control.lean ====
section
/-! DEFINITION. Control transfer (spec/42_control.md). No flag and no memory word changes, nothing faults,
there is no delay slot (R145). -/

namespace Sys2Proof.Machine

/-- `pc <- pc + sext_9(PCoff9)` where the mask meets `cond` (R140). -/
def State.branch (s : State) (nzp : BitVec 3) (off9 : BitVec 9) : State :=
  if s.brTaken nzp then s.setPc (s.pcRel9 off9) else s

/-- `pc <- x[BaseR]` (R141). -/
def State.jump (s : State) (base : RegNo) : State := s.setPc (s.readReg base)

/-- `x[7] <- pc`: the link write of JSR and JSRR, which sets no flag (R27, R142, R143). -/
def State.link (s : State) : State := s.writeReg Config.linkReg s.pc

/-- BR (R140). -/
def execBr (nzp : BitVec 3) (off9 : BitVec 9) (s : State) : Host.Outcome State Fault Refusal :=
  .next (s.branch nzp off9)

/-- JMP (R141). -/
def execJmp (base : RegNo) (s : State) : Host.Outcome State Fault Refusal :=
  .next (s.jump base)

/-- JSR (R142): the target is relative to the incremented `pc`. -/
def execJsr (off11 : BitVec 11) (s : State) : Host.Outcome State Fault Refusal :=
  .next (s.link.setPc (s.pcRel11 off11))

/-- JSRR (R143): the base register is read AFTER the link write, so `JSRR R7` falls through. -/
def execJsrr (base : RegNo) (s : State) : Host.Outcome State Fault Refusal :=
  .next (s.link.jump base)

/-- RET (R144): the JMP with base R7. -/
def execRet (s : State) : Host.Outcome State Fault Refusal :=
  .next (s.jump Config.linkReg)

/-- NOP (R88): the BR with mask 000, which never branches whatever its offset. -/
def execNop (off9 : BitVec 9) (s : State) : Host.Outcome State Fault Refusal :=
  .next (s.branch 0 off9)

end Sys2Proof.Machine
end

