-- ==== Sys2Proof/Machine/LoadStore.lean ====
section
/-! DEFINITION. Data movement (spec/41_load_store.md). Every load is a `MemRead` and polls at 0xFE00 (R55);
every load and LEA set the flags; stores touch memory only (R127). -/

namespace Sys2Proof.Machine

/-- A load of the word at `ea` into DR: `v <- MemRead(ea, 1); x[DR] <- v; setcc(v)`. -/
def State.loadInto (s : State) (dr : RegNo) (ea : Word) : State :=
  (s.afterRead ea).writeDest dr (s.readValue ea)

/-- LD (R120). -/
def execLd (dr : RegNo) (off9 : BitVec 9) (s : State) : Host.Outcome State Fault Refusal :=
  .next (s.loadInto dr (s.pcRel9 off9))

/-- ST (R121). -/
def execSt (sr : RegNo) (off9 : BitVec 9) (s : State) : Host.Outcome State Fault Refusal :=
  .next (s.memWrite (s.pcRel9 off9) (s.readReg sr))

/-- LDR (R122). -/
def execLdr (dr base : RegNo) (off6 : BitVec 6) (s : State) : Host.Outcome State Fault Refusal :=
  .next (s.loadInto dr (s.baseOff base off6))

/-- STR (R123). -/
def execStr (sr base : RegNo) (off6 : BitVec 6) (s : State) : Host.Outcome State Fault Refusal :=
  .next (s.memWrite (s.baseOff base off6) (s.readReg sr))

/-- LDI (R124): the pointer word is read first and polls first (R68). -/
def execLdi (dr : RegNo) (off9 : BitVec 9) (s : State) : Host.Outcome State Fault Refusal :=
  let pa := s.pcRel9 off9
  .next ((s.afterRead pa).loadInto dr (s.readValue pa))

/-- STI (R125): the pointer read is a `MemRead`, the write a plain store. -/
def execSti (sr : RegNo) (off9 : BitVec 9) (s : State) : Host.Outcome State Fault Refusal :=
  let pa := s.pcRel9 off9
  .next ((s.afterRead pa).memWrite (s.readValue pa) (s.readReg sr))

/-- LEA (R126): no memory access; the flags are set from the address. -/
def execLea (dr : RegNo) (off9 : BitVec 9) (s : State) : Host.Outcome State Fault Refusal :=
  .next (s.writeDest dr (s.pcRel9 off9))

end Sys2Proof.Machine
end

