-- ==== Sys2Proof/Machine/Operate.lean ====
section
/-! DEFINITION. The operate instructions (spec/40_operate.md). Sources are read before DR is written, every
result sets the flags, nothing faults (R115). -/

namespace Sys2Proof.Machine

/-- ADD, register form (R110): the sum modulo 2^16. -/
def execAddReg (dr sr1 sr2 : RegNo) (s : State) : Host.Outcome State Fault Refusal :=
  .next (s.writeDest dr (s.readReg sr1 + s.readReg sr2))

/-- ADD, immediate form (R111). -/
def execAddImm (dr sr1 : RegNo) (imm5 : BitVec 5) (s : State) : Host.Outcome State Fault Refusal :=
  .next (s.writeDest dr (s.readReg sr1 + immOperand imm5))

/-- AND, register form (R112). -/
def execAndReg (dr sr1 sr2 : RegNo) (s : State) : Host.Outcome State Fault Refusal :=
  .next (s.writeDest dr (s.readReg sr1 &&& s.readReg sr2))

/-- AND, immediate form (R113): the immediate is sign-extended. -/
def execAndImm (dr sr1 : RegNo) (imm5 : BitVec 5) (s : State) : Host.Outcome State Fault Refusal :=
  .next (s.writeDest dr (s.readReg sr1 &&& immOperand imm5))

/-- NOT (R114): all 16 bits complemented. -/
def execNot (dr sr : RegNo) (s : State) : Host.Outcome State Fault Refusal :=
  .next (s.writeDest dr (~~~ (s.readReg sr)))

end Sys2Proof.Machine
end

