-- ==== Sys2Proof/Syntax.lean ====
section
/-! DEFINITION. The instructions: one constructor per row of spec/opcode_table.json
(spec/30_encoding.md R82, R85, R91).

The arguments of a constructor are the fields of its row from bit 15 down, the ignored bits among them
(R86; names beginning `ign`, DESIGN CHOICE, log 8): no bit of a word is dropped, so a fault can record
`ir` (spec/60_exceptions.md R180) and a word can be given back whole. The eight rows that name words of
another row (GETC to HALT, RET, NOP) have constructors of their own (DESIGN CHOICE, log 7). -/

namespace Sys2Proof

/-- An instruction, decoded: register numbers and immediates are the fields of the word, not yet
extended. -/
inductive Instr where
  /-- BR (R140): `0000 nzp PCoff9`. -/
  | br (nzp : BitVec 3) (off9 : BitVec 9)
  /-- ADD, register form (R110): `0001 DR SR1 0 -- SR2`. -/
  | addReg (dr sr1 : RegNo) (ign : BitVec 2) (sr2 : RegNo)
  /-- ADD, immediate form (R111): `0001 DR SR1 1 imm5`. -/
  | addImm (dr sr1 : RegNo) (imm5 : BitVec 5)
  /-- LD (R120): `0010 DR PCoff9`. -/
  | ld (dr : RegNo) (off9 : BitVec 9)
  /-- ST (R121): `0011 SR PCoff9`. -/
  | st (sr : RegNo) (off9 : BitVec 9)
  /-- JSR (R142): `0100 1 PCoff11`. -/
  | jsr (off11 : BitVec 11)
  /-- JSRR (R143): `0100 0 -- BaseR ------`. -/
  | jsrr (ignHi : BitVec 2) (base : RegNo) (ignLo : BitVec 6)
  /-- AND, register form (R112): `0101 DR SR1 0 -- SR2`. -/
  | andReg (dr sr1 : RegNo) (ign : BitVec 2) (sr2 : RegNo)
  /-- AND, immediate form (R113): `0101 DR SR1 1 imm5`. -/
  | andImm (dr sr1 : RegNo) (imm5 : BitVec 5)
  /-- LDR (R122): `0110 DR BaseR off6`. -/
  | ldr (dr base : RegNo) (off6 : BitVec 6)
  /-- STR (R123): `0111 SR BaseR off6`. -/
  | str (sr base : RegNo) (off6 : BitVec 6)
  /-- RTI (R159): `1000 ------------`. -/
  | rti (ign : BitVec 12)
  /-- NOT (R114): `1001 DR SR ------`. -/
  | not (dr sr : RegNo) (ign : BitVec 6)
  /-- LDI (R124): `1010 DR PCoff9`. -/
  | ldi (dr : RegNo) (off9 : BitVec 9)
  /-- STI (R125): `1011 SR PCoff9`. -/
  | sti (sr : RegNo) (off9 : BitVec 9)
  /-- JMP (R141): `1100 --- BaseR ------`. -/
  | jmp (ignHi : BitVec 3) (base : RegNo) (ignLo : BitVec 6)
  /-- RES, the reserved opcode (R160): `1101 ------------`. -/
  | res (ign : BitVec 12)
  /-- LEA (R126): `1110 DR PCoff9`. -/
  | lea (dr : RegNo) (off9 : BitVec 9)
  /-- TRAP (R150, R161): `1111 ---- trapvect8`. -/
  | trap (ign : BitVec 4) (vect : BitVec 8)
  /-- GETC (R153): `1111 ---- 00100000`. -/
  | getc (ign : BitVec 4)
  /-- OUT (R154): `1111 ---- 00100001`. -/
  | out (ign : BitVec 4)
  /-- PUTS (R155): `1111 ---- 00100010`. -/
  | puts (ign : BitVec 4)
  /-- IN (R156): `1111 ---- 00100011`. -/
  | inChar (ign : BitVec 4)
  /-- PUTSP (R157): `1111 ---- 00100100`. -/
  | putsp (ign : BitVec 4)
  /-- HALT (R158): `1111 ---- 00100101`. -/
  | halt (ign : BitVec 4)
  /-- RET (R144): `1100 --- 111 ------`. -/
  | ret (ignHi : BitVec 3) (ignLo : BitVec 6)
  /-- NOP (R88, R91): `0000 000 PCoff9`, a BR that never branches. -/
  | nop (off9 : BitVec 9)
  deriving DecidableEq, Repr

end Sys2Proof
end

