-- ==== Sys2Proof/WellFormed.lean ====
section
/-! DEFINITION. Which instructions have words of their own (spec/30_encoding.md R85, R91). Every field
value is legal (R83, R84, R86), so the only ill-formed terms are those whose word is the word of an
alias row: each word stands for ONE well-formed instruction (log 7). -/

namespace Sys2Proof

/-- The vectors that have a service and a row of their own, 0x20..0x25 (R85). -/
def isServiceVector (vect : BitVec 8) : Bool := 0x20 ≤ vect.toNat && vect.toNat ≤ 0x25

/-- BR with mask 000 is the row NOP, JMP with base 7 is the row RET, TRAP with a service vector is that
service's row (R91); every other term is well formed. -/
def Instr.wellFormed : Instr → Bool
  | .br nzp _ => nzp != 0
  | .jmp _ base _ => base != 7
  | .trap _ vect => !isServiceVector vect
  | .addReg .. | .addImm .. | .ld .. | .st .. | .jsr .. | .jsrr .. | .andReg .. | .andImm ..
  | .ldr .. | .str .. | .rti .. | .not .. | .ldi .. | .sti .. | .res .. | .lea ..
  | .getc .. | .out .. | .puts .. | .inChar .. | .putsp .. | .halt .. | .ret .. | .nop .. => true

end Sys2Proof
end

