-- ==== Sys2Proof/Decode.lean ====
section
/-! DEFINITION. Decoding and encoding, from the format tables of spec/30_encoding.md R82 and the opcode
map of R85. Every 16-bit word decodes to exactly one row (R81), so `decode` is total and refuses
nothing; the words that fault (R87) decode to RTI, RES and TRAP, whose meanings take the fault. -/

namespace Sys2Proof

/-- `w[lo+len-1 : lo]` (R5). -/
def bits (w : Word) (lo len : Nat) : BitVec len := w.extractLsb' lo len

/-- Opcode 0000: BR, or NOP where the mask is 000 (R88, R91). -/
def decodeBr (w : Word) : Instr :=
  if bits w 9 3 = 0 then .nop (bits w 0 9) else .br (bits w 9 3) (bits w 0 9)

/-- Opcode 0001: ADD, by bit 5 (R85). -/
def decodeAdd (w : Word) : Instr :=
  if bits w 5 1 = 1 then .addImm (bits w 9 3) (bits w 6 3) (bits w 0 5)
  else .addReg (bits w 9 3) (bits w 6 3) (bits w 3 2) (bits w 0 3)

/-- Opcode 0100: JSR or JSRR, by bit 11 (R85). -/
def decodeJsr (w : Word) : Instr :=
  if bits w 11 1 = 1 then .jsr (bits w 0 11)
  else .jsrr (bits w 9 2) (bits w 6 3) (bits w 0 6)

/-- Opcode 0101: AND, by bit 5 (R85). -/
def decodeAnd (w : Word) : Instr :=
  if bits w 5 1 = 1 then .andImm (bits w 9 3) (bits w 6 3) (bits w 0 5)
  else .andReg (bits w 9 3) (bits w 6 3) (bits w 3 2) (bits w 0 3)

/-- Opcode 1100: JMP, or RET where the base is R7 (R91, R144). -/
def decodeJmp (w : Word) : Instr :=
  if bits w 6 3 = 7 then .ret (bits w 9 3) (bits w 0 6)
  else .jmp (bits w 9 3) (bits w 6 3) (bits w 0 6)

/-- Opcode 1111: TRAP, or the row of the service its vector selects (R85). -/
def decodeTrap (w : Word) : Instr :=
  if bits w 0 8 = 0x20 then .getc (bits w 8 4)
  else if bits w 0 8 = 0x21 then .out (bits w 8 4)
  else if bits w 0 8 = 0x22 then .puts (bits w 8 4)
  else if bits w 0 8 = 0x23 then .inChar (bits w 8 4)
  else if bits w 0 8 = 0x24 then .putsp (bits w 8 4)
  else if bits w 0 8 = 0x25 then .halt (bits w 8 4)
  else .trap (bits w 8 4) (bits w 0 8)

/-- The instruction a word stands for: the opcode map of R85, by `ir[15:12]`. The last arm is
opcode 1111, the one value left of four bits. -/
def decode (w : Word) : Instr :=
  match (bits w 12 4).toNat with
  | 0 => decodeBr w
  | 1 => decodeAdd w
  | 2 => .ld (bits w 9 3) (bits w 0 9)
  | 3 => .st (bits w 9 3) (bits w 0 9)
  | 4 => decodeJsr w
  | 5 => decodeAnd w
  | 6 => .ldr (bits w 9 3) (bits w 6 3) (bits w 0 6)
  | 7 => .str (bits w 9 3) (bits w 6 3) (bits w 0 6)
  | 8 => .rti (bits w 0 12)
  | 9 => .not (bits w 9 3) (bits w 6 3) (bits w 0 6)
  | 10 => .ldi (bits w 9 3) (bits w 0 9)
  | 11 => .sti (bits w 9 3) (bits w 0 9)
  | 12 => decodeJmp w
  | 13 => .res (bits w 0 12)
  | 14 => .lea (bits w 9 3) (bits w 0 9)
  | _ => decodeTrap w

/-- The word of an instruction, each row written out as its format table of R82 draws it, the ignored
bits as the instruction holds them. -/
def encode : Instr → Word
  | .br nzp off9 => 0b0000#4 ++ nzp ++ off9
  | .addReg dr sr1 ign sr2 => 0b0001#4 ++ dr ++ sr1 ++ 0b0#1 ++ ign ++ sr2
  | .addImm dr sr1 imm5 => 0b0001#4 ++ dr ++ sr1 ++ 0b1#1 ++ imm5
  | .ld dr off9 => 0b0010#4 ++ dr ++ off9
  | .st sr off9 => 0b0011#4 ++ sr ++ off9
  | .jsr off11 => 0b0100#4 ++ 0b1#1 ++ off11
  | .jsrr ignHi base ignLo => 0b0100#4 ++ 0b0#1 ++ ignHi ++ base ++ ignLo
  | .andReg dr sr1 ign sr2 => 0b0101#4 ++ dr ++ sr1 ++ 0b0#1 ++ ign ++ sr2
  | .andImm dr sr1 imm5 => 0b0101#4 ++ dr ++ sr1 ++ 0b1#1 ++ imm5
  | .ldr dr base off6 => 0b0110#4 ++ dr ++ base ++ off6
  | .str sr base off6 => 0b0111#4 ++ sr ++ base ++ off6
  | .rti ign => 0b1000#4 ++ ign
  | .not dr sr ign => 0b1001#4 ++ dr ++ sr ++ ign
  | .ldi dr off9 => 0b1010#4 ++ dr ++ off9
  | .sti sr off9 => 0b1011#4 ++ sr ++ off9
  | .jmp ignHi base ignLo => 0b1100#4 ++ ignHi ++ base ++ ignLo
  | .res ign => 0b1101#4 ++ ign
  | .lea dr off9 => 0b1110#4 ++ dr ++ off9
  | .trap ign vect => 0b1111#4 ++ ign ++ vect
  | .getc ign => 0b1111#4 ++ ign ++ 0x20#8
  | .out ign => 0b1111#4 ++ ign ++ 0x21#8
  | .puts ign => 0b1111#4 ++ ign ++ 0x22#8
  | .inChar ign => 0b1111#4 ++ ign ++ 0x23#8
  | .putsp ign => 0b1111#4 ++ ign ++ 0x24#8
  | .halt ign => 0b1111#4 ++ ign ++ 0x25#8
  | .ret ignHi ignLo => 0b1100#4 ++ ignHi ++ 0b111#3 ++ ignLo
  | .nop off9 => 0b0000#4 ++ 0b000#3 ++ off9

/-- What the decoder reads from an instruction word of the opcode table, `nbits` wide: an instruction is
one word of 16 bits (R80), and a wider value is no instruction. -/
def decodeTableWord (nbits w : Nat) : Option Instr :=
  if w % 2 ^ nbits < 2 ^ 16 then some (decode (BitVec.ofNat 16 (w % 2 ^ nbits))) else none

end Sys2Proof
end

