-- ==== Sys2Proof/Machine/Services.lean ====
section
/-! DEFINITION. The six trap services (spec/43_trap_and_system.md R151 to R158), each from the state that
TRAP entry leaves. A service writes no `pc`, so execution goes on after the TRAP (R151, R188).

GETC and IN hold the core until a byte is on the keyboard queue. With a byte there they finish in the
step of their TRAP; with none, the step ends with `trapPhase` saying which of them waits, and `step`
resumes it (log 4). -/

namespace Sys2Proof.Machine

/-- IN_PROMPT: the 19 bytes of `Enter a character: ` (R156). -/
def inPrompt : List Byte :=
  [0x45, 0x6E, 0x74, 0x65, 0x72, 0x20, 0x61, 0x20, 0x63, 0x68, 0x61, 0x72, 0x61, 0x63, 0x74, 0x65,
   0x72, 0x3A, 0x20]

/-- HALT_MSG: `HALT` and a newline (R158). -/
def haltMsg : List Byte := [0x48, 0x41, 0x4C, 0x54, 0x0A]

/-! ### GETC and IN -/

/-- The end of GETC, the byte taken: R0 and the flags from it, no echo (R153). -/
def finishGetc (b : Byte) (s : State) : State :=
  (s.writeDest Config.argReg (zext16 b)).setTrapPhase .none

/-- The end of IN, the byte taken: the echo, then R0 and the flags (R156). -/
def finishIn (b : Byte) (s : State) : State :=
  ((s.emit [b]).writeDest Config.argReg (zext16 b)).setTrapPhase .none

/-- GETC (R153): finish with the head byte, or hold. -/
def serviceGetc (s : State) : State :=
  match s.kbdTake with
  | some (b, s') => finishGetc b s'
  | none => s.setTrapPhase .waitGetc

/-- IN (R156): the prompt is on the console before the hold. -/
def serviceIn (s : State) : State :=
  match (s.emit inPrompt).kbdTake with
  | some (b, s') => finishIn b s'
  | none => (s.emit inPrompt).setTrapPhase .waitIn

/-- A held GETC, resumed: it ends with a byte, and no step is enabled without one (R153, U6). -/
def resumeGetc (s : State) : Host.Outcome State Fault Refusal :=
  match s.kbdTake with
  | some (b, s') => .next (finishGetc b s')
  | none => .fault .heldForKey

/-- A held IN, resumed; its prompt is already on the console (R156, U6). -/
def resumeIn (s : State) : Host.Outcome State Fault Refusal :=
  match s.kbdTake with
  | some (b, s') => .next (finishIn b s')
  | none => .fault .heldForKey

/-! ### OUT, PUTS, PUTSP, HALT -/

/-- OUT (R154): the low byte of R0. -/
def serviceOut (s : State) : State := s.emit [lowByte (s.readReg Config.argReg)]

/-- What PUTS writes for a word that does not end the string: its low byte (R155). -/
def putsBytes (w : Word) : List Byte := [lowByte w]

/-- What PUTSP writes for a word that does not end the string: its low byte always, then its high byte if
that is not zero (R157). -/
def putspBytes (w : Word) : List Byte :=
  lowByte w :: if highByte w = 0 then [] else [highByte w]

/-- The loop of PUTS and PUTSP (R155, R157): read the word at `a` with a `MemRead`, which polls at 0xFE00;
stop at a zero word; write the word's bytes and go on at `a + 1` modulo 2^16. The first argument bounds
the words read; `none` where they ran out before a zero word. -/
def stringWalk (bytesOf : Word → List Byte) : Nat → Word → State → Option State
  | 0, _, _ => none
  | fuel + 1, a, s =>
    if s.readValue a = 0 then some (s.afterRead a)
    else stringWalk bytesOf fuel (a + 1) ((s.afterRead a).emit (bytesOf (s.readValue a)))

/-- A bound no walk reaches (log 6): a walk that comes round to 0xFE00 takes a byte or ends there, so it
makes at most one round of the address space for each byte of the queue, and one more. -/
def walkBound (s : State) : Nat := (s.kbd.length + 1) * Config.memWords

/-- PUTS or PUTSP, from R0 (R155, R157). -/
def serviceString (bytesOf : Word → List Byte) (s : State) : Host.Outcome State Fault Refusal :=
  match stringWalk bytesOf (walkBound s) (s.readReg Config.argReg) s with
  | some t => .next t
  | none => .fault .endlessString

/-- HALT (R158): the message, then HALTED. -/
def serviceHalt (s : State) : State := (s.emit haltMsg).setRun .halted

end Sys2Proof.Machine
end

