-- ==== Sys2Proof/Machine/Trap.lean ====
section
/-! DEFINITION. TRAP, its six named services and the two opcodes that always fault
(spec/43_trap_and_system.md R150 to R161). Every TRAP writes R7 before its vector is examined (R150), and
a fault records the whole instruction word (spec/60_exceptions.md R180). -/

namespace Sys2Proof.Machine

/-- GETC (R153). -/
def execGetc (s : State) : Host.Outcome State Fault Refusal := .next (serviceGetc s.trapEntry)

/-- OUT (R154). -/
def execOut (s : State) : Host.Outcome State Fault Refusal := .next (serviceOut s.trapEntry)

/-- PUTS (R155). -/
def execPuts (s : State) : Host.Outcome State Fault Refusal := serviceString putsBytes s.trapEntry

/-- IN (R156). -/
def execInChar (s : State) : Host.Outcome State Fault Refusal := .next (serviceIn s.trapEntry)

/-- PUTSP (R157). -/
def execPutsp (s : State) : Host.Outcome State Fault Refusal := serviceString putspBytes s.trapEntry

/-- HALT (R158). -/
def execHalt (s : State) : Host.Outcome State Fault Refusal := .next (serviceHalt s.trapEntry)

/-- TRAP (R150): the service the vector selects, or the fault UNKNOWN_TRAP_VECTOR with R7 written (R161). A
well-formed TRAP term has an unknown vector; the services are here all the same, because R150 is the rule
of every vector (log 7). -/
def execTrap (ign : BitVec 4) (vect : BitVec 8) (s : State) : Host.Outcome State Fault Refusal :=
  if vect = 0x20 then .next (serviceGetc s.trapEntry)
  else if vect = 0x21 then .next (serviceOut s.trapEntry)
  else if vect = 0x22 then serviceString putsBytes s.trapEntry
  else if vect = 0x23 then .next (serviceIn s.trapEntry)
  else if vect = 0x24 then serviceString putspBytes s.trapEntry
  else if vect = 0x25 then .next (serviceHalt s.trapEntry)
  else .next (s.trapEntry.raiseFault .unknownTrapVector (encode (.trap ign vect)))

/-- RTI (R159): always the fault RTI_UNSUPPORTED. -/
def execRti (ign : BitVec 12) (s : State) : Host.Outcome State Fault Refusal :=
  .next (s.raiseFault .rtiUnsupported (encode (.rti ign)))

/-- RES (R160): always the fault RESERVED_OPCODE. -/
def execRes (ign : BitVec 12) (s : State) : Host.Outcome State Fault Refusal :=
  .next (s.raiseFault .reservedOpcode (encode (.res ign)))

end Sys2Proof.Machine
end

