-- ==== Sys2Proof/Machine/Step.lean ====
section
/-! DEFINITION. One step of the core (spec/00_scope.md R11): fetch, increment, decode, execute, whole; or
the end of a service that holds (spec/10_state.md R31). A step exists only while `run` is RUNNING (R30). -/

namespace Sys2Proof.Machine

/-- One step. In HALTED and FAULTED there is none (R11, R30), and in a held GETC or IN there is one only
with a byte on the queue (R153, R156); what `step` answers there is log 3 and log 4. -/
def step (s : State) : Host.Outcome State Fault Refusal :=
  match s.run with
  | .halted => .fault .halted
  | .faulted cause ir => .fault (.faulted cause ir)
  | .running =>
    match s.trapPhase with
    | .none => exec (decode s.fetchWord) s.afterFetch
    | .waitGetc => resumeGetc s
    | .waitIn => resumeIn s

/-- Where `withFetchWord` puts the word: at `pc`, except that no word can be fetched from 0xFE00, whose
read polls (R222), so there the reset entry point is used (DESIGN CHOICE, log 14). -/
def State.fetchAddr (s : State) : Word := if s.pc = Config.kbsrAddr then Config.pcReset else s.pc

/-- `s` about to fetch and run the word `w`: the word stored where the next fetch reads, the core running
and between instructions (log 13, log 14). From reset this changes the one memory word. -/
def State.withFetchWord (s : State) (nbits w : Nat) : State :=
  (((s.memWrite s.fetchAddr (BitVec.ofNat 16 (w % 2 ^ nbits))).setPc s.fetchAddr).setRun
    .running).setTrapPhase .none

end Sys2Proof.Machine
end

