-- ==== Sys2Proof/Machine/HostInterface.lean ====
section
/-! DEFINITION. What the host may do (spec/00_scope.md R13): load images before the first instruction
(spec/70_reset_and_hazards.md R213 to R216) and deliver keyboard bytes (spec/10_state.md R32). These are
the two OPEN inputs of R4. The kill (R186) is no move (log 15). -/

namespace Sys2Proof.Machine

/-- Image bytes to memory words from an address on, big-endian: two bytes a word, a trailing odd byte
dropped, words beyond 0xFFFF dropped (R214, R216). A plain store at every address: no poll. -/
def loadWords : Memory → Nat → List Byte → Memory
  | m, a, hi :: lo :: rest =>
    if a < Config.memWords then loadWords (m.write a (wordOfBytes hi lo)) (a + 1) rest else m
  | m, _, _ => m

/-- One image: the first word is the origin; a file of fewer than two bytes loads nothing (R214, R216). -/
def loadImage (m : Memory) (file : List Byte) : Memory :=
  match file with
  | hi :: lo :: rest => loadWords m (wordOfBytes hi lo).toNat rest
  | _ => m

/-- The state at the first fetch with these images loaded in order, later ones over earlier ones (R213,
R215). The entry point does not depend on any origin (R212). -/
def State.launch (images : List (List Byte)) : State :=
  { State.reset with mem := images.foldl loadImage State.reset.mem }

/-- The host delivers a byte: it joins the end of the keyboard queue, at any time and in any state (R32). -/
def State.deliverKey (s : State) (b : Byte) : State := s.setKbd (s.kbd ++ [b])

end Sys2Proof.Machine
end

