-- ==== Sys2Proof/Safety.lean ====
section
/-! DEFINITION. What counts as a safe run, and the terms the statements are written in: runs of the core and
the host together (spec/00_scope.md R10, R12, R13), the invariant of the state, and the spec's relations
for a memory read, the flags and the string loop, said from the spec without the model's own code. -/

namespace Sys2Proof.Machine

/-! ### Runs -/

/-- The states a run can reach from its images: the core's steps and the host's key deliveries in any order
(R13). -/
inductive Reach (images : List (List Byte)) : State → Prop where
  /-- The state at the first fetch. -/
  | launch : Reach images (State.launch images)
  /-- One step of the core. -/
  | core {s t : State} : Reach images s → step s = .next t → Reach images t
  /-- One byte from the keyboard. -/
  | key {s : State} (b : Byte) : Reach images s → Reach images (s.deliverKey b)

/-- The state has not gone wrong (R181). -/
def State.faultFree (s : State) : Prop := ∀ cause ir, s.run ≠ .faulted cause ir

/-- A safe run: no state it can reach is FAULTED, whatever the keyboard delivers and when (R12, R181). -/
def SafeRun (images : List (List Byte)) : Prop := ∀ s, Reach images s → s.faultFree

/-- A result of a run: a state it reaches with `run` HALTED (R12). -/
def IsResult (images : List (List Byte)) (s : State) : Prop := Reach images s ∧ s.run = .halted

/-! ### The invariant -/

/-- What every reachable state has: memory in canonical form, `cond` one-hot (R25), and, while a service
holds, the core RUNNING (R30, R31), R7 the return address of its TRAP (R150), and for IN its prompt the last
thing on the console (R156). -/
structure State.Inv (s : State) : Prop where
  memWf : s.mem.wf
  condLegal : s.cond = 0b100 ∨ s.cond = 0b010 ∨ s.cond = 0b001
  holdRunning : s.trapPhase ≠ .none → s.run = .running
  holdLink : s.trapPhase ≠ .none → s.readReg 7 = s.pc
  holdPrompt : s.trapPhase = .waitIn → inPrompt <:+ s.conOut

/-! ### Terms of the statements -/

/-- The flag of a word read as a signed number (R26). -/
structure CondOf (v : Word) (c : BitVec 3) : Prop where
  negative : v.toInt < 0 → c = 0b100
  zero : v.toInt = 0 → c = 0b010
  positive : 0 < v.toInt → c = 0b001

/-- Reading address `a` of `s` gives the word `v` and leaves memory and keyboard queue as in `t` (R53, R54): a
plain read anywhere but at 0xFE00, where the read polls first. -/
structure MemReadOf (s : State) (a v : Word) (t : State) : Prop where
  plain : a ≠ 0xFE00 → v = s.peek a ∧ (∀ x, t.peek x = s.peek x) ∧ t.kbd = s.kbd
  notReady : a = 0xFE00 → s.kbd = [] →
    v = 0x0000 ∧ t.peek 0xFE00 = 0x0000 ∧ (∀ x, x ≠ 0xFE00 → t.peek x = s.peek x) ∧ t.kbd = []
  ready : a = 0xFE00 → ∀ b q, s.kbd = b :: q →
    v = 0x8000 ∧ t.peek 0xFE00 = 0x8000 ∧ (t.peek 0xFE02).toNat = b.toNat ∧
      (∀ x, x ≠ 0xFE00 → x ≠ 0xFE02 → t.peek x = s.peek x) ∧ t.kbd = q

/-- `t` differs from `s` in nothing but registers of the list, `pc` and `cond`. -/
structure OnlyRegsPcCond (s t : State) (rs : List RegNo) : Prop where
  regs : ∀ r, r ∉ rs → t.readReg r = s.readReg r
  mem : ∀ a, t.peek a = s.peek a
  run : t.run = s.run
  phase : t.trapPhase = s.trapPhase
  kbd : t.kbd = s.kbd
  conOut : t.conOut = s.conOut

/-- `t` differs from `s` in nothing but a register of the list, `cond`, memory and the keyboard queue. -/
structure OnlyRegsCondMemKbd (s t : State) (rs : List RegNo) : Prop where
  regs : ∀ r, r ∉ rs → t.readReg r = s.readReg r
  pc : t.pc = s.pc
  run : t.run = s.run
  phase : t.trapPhase = s.trapPhase
  conOut : t.conOut = s.conOut

/-- `t` is `s` with the word `v` stored at `a`: every other word of memory and all else as before. -/
structure OnlyStore (s t : State) (a v : Word) : Prop where
  stored : t.peek a = v
  mem : ∀ x, x ≠ a → t.peek x = s.peek x
  regs : ∀ r, t.readReg r = s.readReg r
  pc : t.pc = s.pc
  cond : t.cond = s.cond
  run : t.run = s.run
  phase : t.trapPhase = s.trapPhase
  kbd : t.kbd = s.kbd
  conOut : t.conOut = s.conOut

/-- `t` differs from `s` in nothing but `run`. -/
structure OnlyRun (s t : State) : Prop where
  regs : ∀ r, t.readReg r = s.readReg r
  pc : t.pc = s.pc
  cond : t.cond = s.cond
  mem : ∀ a, t.peek a = s.peek a
  phase : t.trapPhase = s.trapPhase
  kbd : t.kbd = s.kbd
  conOut : t.conOut = s.conOut

/-- What TRAP and any service leave of the rest: R7 the return address, `pc` and every register but R7 and
those of the list as before (R150, R151). -/
structure TrapFrame (s t : State) (rs : List RegNo) : Prop where
  link : t.readReg 7 = s.pc
  regs : ∀ r, r ≠ 7 → r ∉ rs → t.readReg r = s.readReg r
  pc : t.pc = s.pc

/-- The loop of PUTS and PUTSP from the address `a` (R155, R157), unbounded: `bs` is everything it writes and
`t` the state its reads leave. -/
inductive StringLoop (bytesOf : Word → List Byte) : State → Word → List Byte → State → Prop where
  /-- The word read is zero: the loop ends. -/
  | stop {s : State} {a : Word} : s.readValue a = 0 → StringLoop bytesOf s a [] (s.afterRead a)
  /-- The word read is not zero: its bytes, then the next address. -/
  | more {s t : State} {a : Word} {bs : List Byte} : s.readValue a ≠ 0 →
      StringLoop bytesOf (s.afterRead a) (a + 1) bs t →
      StringLoop bytesOf s a (bytesOf (s.readValue a) ++ bs) t

/-- `w[7:0]` (R155). -/
def lowChar (w : Word) : Byte := BitVec.ofNat 8 (w.toNat % 256)

/-- `w[7:0]` and then `w[15:8]` where it is not zero (R157). -/
def packedChars (w : Word) : List Byte :=
  if w.toNat / 256 = 0 then [lowChar w] else [lowChar w, BitVec.ofNat 8 (w.toNat / 256)]

/-- The words of memory from `a` on are those of the list and then a zero word, and no address read is 0xFE00,
whose read would poll (R155). -/
def StringAt (s : State) : Word → List Word → Prop
  | a, [] => a ≠ 0xFE00 ∧ s.peek a = 0
  | a, w :: ws => a ≠ 0xFE00 ∧ w ≠ 0 ∧ s.peek a = w ∧ StringAt s (a + 1) ws

/-- The origin of an image: its first two bytes, big-endian (R214). -/
def imageOrigin (file : List Byte) : Nat := (file.getD 0 0).toNat * 256 + (file.getD 1 0).toNat

/-- How many words an image places: whole words only, none beyond 0xFFFF (R214, R216). -/
def imageCount (file : List Byte) : Nat := min ((file.length - 2) / 2) (0x10000 - imageOrigin file)

/-- The address is one an image's words are placed at (R214). -/
def imageCovers (file : List Byte) (a : Word) : Prop :=
  imageOrigin file ≤ a.toNat ∧ a.toNat < imageOrigin file + imageCount file

/-- Word `i` of an image, big-endian (R214). -/
def imageWord (file : List Byte) (i : Nat) : Word :=
  BitVec.ofNat 16 ((file.getD (2 + 2 * i) 0).toNat * 256 + (file.getD (3 + 2 * i) 0).toNat)

/-- The address a store instruction writes: the one its meaning computes (R121, R123, R125). -/
def storeAddr (i : Instr) (s : State) : Option Word :=
  match i with
  | .st _ off9 => some (s.pcRel9 off9)
  | .str _ base off6 => some (s.baseOff base off6)
  | .sti _ off9 => some (s.readValue (s.pcRel9 off9))
  | .br .. | .addReg .. | .addImm .. | .ld .. | .jsr .. | .jsrr .. | .andReg .. | .andImm .. | .ldr ..
  | .rti .. | .not .. | .ldi .. | .jmp .. | .res .. | .lea .. | .trap .. | .getc .. | .out .. | .puts ..
  | .inChar .. | .putsp .. | .halt .. | .ret .. | .nop .. => none

/-! ### Looks at the keyboard that find nothing -/

/-- A read of address `a` polls and finds the keyboard queue empty (R53, R54). -/
def PollMisses (s : State) (a : Word) : Prop := a = 0xFE00 ∧ s.kbd = []

/-- Some read of the loop of PUTS and PUTSP from `a` polls and finds the queue empty (R155, R157). -/
inductive LoopMisses : State → Word → Prop where
  /-- The read of this word does. -/
  | here {s : State} {a : Word} : PollMisses s a → LoopMisses s a
  /-- The word read is not zero, so the loop goes on, and a later read does. -/
  | later {s : State} {a : Word} : s.readValue a ≠ 0 → LoopMisses (s.afterRead a) (a + 1) → LoopMisses s a

/-- Executing an instruction, some poll of its reads (R55) or the wait of GETC or IN (R153, R156) finds the queue
empty. A well-formed TRAP has no service, so it does not look. -/
def InstrMisses (i : Instr) (s : State) : Prop :=
  match i with
  | .ld _ off9 | .sti _ off9 => PollMisses s (s.pcRel9 off9)
  | .ldr _ base off6 => PollMisses s (s.baseOff base off6)
  | .ldi _ off9 =>
    PollMisses s (s.pcRel9 off9) ∨ PollMisses (s.afterRead (s.pcRel9 off9)) (s.readValue (s.pcRel9 off9))
  | .puts _ | .putsp _ => LoopMisses s (s.readReg 0)
  | .getc _ | .inChar _ => s.kbd = []
  | .br .. | .addReg .. | .addImm .. | .st .. | .jsr .. | .jsrr .. | .andReg .. | .andImm .. | .str ..
  | .rti .. | .not .. | .jmp .. | .res .. | .lea .. | .trap .. | .out .. | .halt .. | .ret .. | .nop .. => False

/-- In the step from `s`, between instructions, the poll of the fetch or one of the instruction it fetches finds
the queue empty. A held service looks too, but with an empty queue it has no step (U6). -/
def StepMisses (s : State) : Prop :=
  s.trapPhase = .none ∧ (PollMisses s s.pc ∨ InstrMisses (decode s.fetchWord) s.afterFetch)

end Sys2Proof.Machine

namespace Sys2Proof

/-- A row of the opcode map: its mnemonic, mask and match (R85). -/
structure Row where
  mnemonic : String
  mask : Word
  value : Word
  deriving DecidableEq, Repr

/-- The nineteen primary rows of R85, in its order. -/
def primaryRows : List Row :=
  [⟨"BR", 0xF000, 0x0000⟩, ⟨"ADD", 0xF020, 0x1000⟩, ⟨"ADD", 0xF020, 0x1020⟩, ⟨"LD", 0xF000, 0x2000⟩,
   ⟨"ST", 0xF000, 0x3000⟩, ⟨"JSR", 0xF800, 0x4800⟩, ⟨"JSRR", 0xF800, 0x4000⟩, ⟨"AND", 0xF020, 0x5000⟩,
   ⟨"AND", 0xF020, 0x5020⟩, ⟨"LDR", 0xF000, 0x6000⟩] ++
  [⟨"STR", 0xF000, 0x7000⟩, ⟨"RTI", 0xF000, 0x8000⟩, ⟨"NOT", 0xF000, 0x9000⟩, ⟨"LDI", 0xF000, 0xA000⟩,
   ⟨"STI", 0xF000, 0xB000⟩, ⟨"JMP", 0xF000, 0xC000⟩, ⟨"RES", 0xF000, 0xD000⟩, ⟨"LEA", 0xF000, 0xE000⟩,
   ⟨"TRAP", 0xF000, 0xF000⟩]

/-- The primary row an instruction belongs to; an alias row's instruction belongs to the row it is another
name for (R91). -/
def Instr.primaryRow : Instr → Row
  | .br .. | .nop .. => ⟨"BR", 0xF000, 0x0000⟩
  | .addReg .. => ⟨"ADD", 0xF020, 0x1000⟩
  | .addImm .. => ⟨"ADD", 0xF020, 0x1020⟩
  | .ld .. => ⟨"LD", 0xF000, 0x2000⟩
  | .st .. => ⟨"ST", 0xF000, 0x3000⟩
  | .jsr .. => ⟨"JSR", 0xF800, 0x4800⟩
  | .jsrr .. => ⟨"JSRR", 0xF800, 0x4000⟩
  | .andReg .. => ⟨"AND", 0xF020, 0x5000⟩
  | .andImm .. => ⟨"AND", 0xF020, 0x5020⟩
  | .ldr .. => ⟨"LDR", 0xF000, 0x6000⟩
  | .str .. => ⟨"STR", 0xF000, 0x7000⟩
  | .rti .. => ⟨"RTI", 0xF000, 0x8000⟩
  | .not .. => ⟨"NOT", 0xF000, 0x9000⟩
  | .ldi .. => ⟨"LDI", 0xF000, 0xA000⟩
  | .sti .. => ⟨"STI", 0xF000, 0xB000⟩
  | .jmp .. | .ret .. => ⟨"JMP", 0xF000, 0xC000⟩
  | .res .. => ⟨"RES", 0xF000, 0xD000⟩
  | .lea .. => ⟨"LEA", 0xF000, 0xE000⟩
  | .trap .. | .getc .. | .out .. | .puts .. | .inChar .. | .putsp .. | .halt .. => ⟨"TRAP", 0xF000, 0xF000⟩

/-- The DR field of an instruction that has one: a register it writes and takes the flags from (R27, R83). -/
def Instr.destReg : Instr → Option RegNo
  | .addReg dr .. | .addImm dr .. | .andReg dr .. | .andImm dr .. | .not dr .. | .ld dr .. | .ldi dr ..
  | .ldr dr .. | .lea dr .. => some dr
  | .br .. | .st .. | .jsr .. | .jsrr .. | .str .. | .rti .. | .sti .. | .jmp .. | .res .. | .trap ..
  | .getc .. | .out .. | .puts .. | .inChar .. | .putsp .. | .halt .. | .ret .. | .nop .. => none

/-- The instructions that write R7 with the return address: JSR, JSRR and every TRAP (R22, R145). -/
def Instr.links : Instr → Bool
  | .jsr .. | .jsrr .. | .trap .. | .getc .. | .out .. | .puts .. | .inChar .. | .putsp .. | .halt .. => true
  | .br .. | .addReg .. | .addImm .. | .ld .. | .st .. | .andReg .. | .andImm .. | .ldr .. | .str .. | .rti ..
  | .not .. | .ldi .. | .sti .. | .jmp .. | .res .. | .lea .. | .ret .. | .nop .. => false

/-- The instructions that write `pc` beyond the fetch increment (R24); NOP is a BR that does not. -/
def Instr.transfers : Instr → Bool
  | .br .. | .jmp .. | .ret .. | .jsr .. | .jsrr .. => true
  | .addReg .. | .addImm .. | .ld .. | .st .. | .andReg .. | .andImm .. | .ldr .. | .str .. | .rti .. | .not ..
  | .ldi .. | .sti .. | .res .. | .lea .. | .trap .. | .getc .. | .out .. | .puts .. | .inChar .. | .putsp ..
  | .halt .. | .nop .. => false

/-- The two services that take a byte and write R0 and the flags from it (R27, R151). -/
def Instr.readsKey : Instr → Bool
  | .getc .. | .inChar .. => true
  | .br .. | .addReg .. | .addImm .. | .ld .. | .st .. | .jsr .. | .jsrr .. | .andReg .. | .andImm .. | .ldr ..
  | .str .. | .rti .. | .not .. | .ldi .. | .sti .. | .jmp .. | .res .. | .lea .. | .trap .. | .out .. | .puts ..
  | .putsp .. | .halt .. | .ret .. | .nop .. => false

/-- The services that write to the console (R33, R153). -/
def Instr.prints : Instr → Bool
  | .out .. | .puts .. | .inChar .. | .putsp .. | .halt .. => true
  | .br .. | .addReg .. | .addImm .. | .ld .. | .st .. | .jsr .. | .jsrr .. | .andReg .. | .andImm .. | .ldr ..
  | .str .. | .rti .. | .not .. | .ldi .. | .sti .. | .jmp .. | .res .. | .lea .. | .trap .. | .getc .. | .ret ..
  | .nop .. => false

/-- The SR field of a store instruction: the register whose word it stores (R83, R121, R123, R125). -/
def Instr.storeReg : Instr → Option RegNo
  | .st sr _ | .str sr _ _ | .sti sr _ => some sr
  | .br .. | .addReg .. | .addImm .. | .ld .. | .jsr .. | .jsrr .. | .andReg .. | .andImm .. | .ldr .. | .rti ..
  | .not .. | .ldi .. | .jmp .. | .res .. | .lea .. | .trap .. | .getc .. | .out .. | .puts .. | .inChar ..
  | .putsp .. | .halt .. | .ret .. | .nop .. => none

/-- The instructions that make a `MemRead` beyond their fetch (R55). -/
def Instr.readsMemory : Instr → Bool
  | .ld .. | .ldr .. | .ldi .. | .sti .. | .puts .. | .putsp .. => true
  | .br .. | .addReg .. | .addImm .. | .st .. | .jsr .. | .jsrr .. | .andReg .. | .andImm .. | .str .. | .rti ..
  | .not .. | .jmp .. | .res .. | .lea .. | .trap .. | .getc .. | .out .. | .inChar .. | .halt .. | .ret ..
  | .nop .. => false

/-- The bits of a word that its row gives a role: all but the ignored bits of R86. RTI and RES keep all of
theirs here, because the fault they take records the word. -/
def usedBits (w : Word) : Word :=
  match w.toNat / 4096 with
  | 1 | 5 => if w.toNat / 32 % 2 = 0 then 0xFFE7 else 0xFFFF
  | 4 => if w.toNat / 2048 % 2 = 0 then 0xF9C0 else 0xFFFF
  | 9 => 0xFFC0
  | 12 => 0xF1C0
  | 15 => 0xF0FF
  | _ => 0xFFFF

/-- `w[7:0]` selects one of the six services (R85). -/
def hasService (w : Word) : Prop := 0x20 ≤ w.toNat % 256 ∧ w.toNat % 256 ≤ 0x25

end Sys2Proof
end

