-- ==== Sys2Proof/Certificates/Slice0/Obligations.lean ====
section
/-! DEFINITION. The statements for the provers, from the numbered rules of spec/. Each instruction's statement
says its word (drawn as its format table of R82 draws it), that it completes, its result and its frame.
`pc` in a statement about `exec` is the incremented one (R24). -/

open Sys2Proof Sys2Proof.Machine

/-! ### Notation and registers -/

/-- R7: the N-bit field of any word, extended: bits below N kept, the others copies of bit N-1; the numeric
form; and extending twice changes nothing. -/
def Obligations.SignExtensionCopiesTopBit : Prop :=
  ∀ (n : Nat) (x : Word), 1 ≤ n → n ≤ 16 →
    (∀ i, i < 16 → (sext (x.setWidth n)).getLsbD i = x.getLsbD (if i < n then i else n - 1)) ∧
    ((sext (x.setWidth n)).toNat : Int) =
      ((x.toNat % 2 ^ n : Nat) - 2 ^ n * (if x.getLsbD (n - 1) then 1 else 0) : Int) % 2 ^ 16 ∧
    sext ((sext (x.setWidth n)).setWidth 16) = sext (x.setWidth n)

/-- From R20: eight cells, none hardwired, no aliases; a register write changes nothing else. -/
def Obligations.RegisterWriteReadsBack : Prop :=
  ∀ (s : State) (r : RegNo) (v : Word),
    (s.writeReg r v).readReg r = v ∧ (s.writeReg r v).pc = s.pc ∧ (s.writeReg r v).cond = s.cond ∧
    OnlyRegsPcCond s (s.writeReg r v) [r]

/-- R26: `setcc` reads the word as signed, and writes `cond` alone. -/
def Obligations.SetccFollowsSign : Prop :=
  ∀ (s : State) (v : Word),
    CondOf v (s.setcc v).cond ∧ (s.setcc v).pc = s.pc ∧ OnlyRegsPcCond s (s.setcc v) []

/-! ### Memory and the keyboard latch -/

/-- R52: a write stores its word at every address and does nothing else. -/
def Obligations.WriteStoresOneWord : Prop :=
  ∀ (s : State) (a v : Word), OnlyStore s (s.memWrite a v) a v

/-- R53, R54: what a read returns and leaves, at every address; the rest of the state is as before. -/
def Obligations.ReadPollsOnlyAtKbsr : Prop :=
  ∀ (s : State) (a : Word),
    MemReadOf s a (s.readValue a) (s.afterRead a) ∧ (s.afterRead a).cond = s.cond ∧
    OnlyRegsCondMemKbd s (s.afterRead a) []

/-- R56, which the spec derives from R52, R53 and R54 and decides as D26 (log 11): a store to 0xFE00 is kept and
never seen, a store to 0xFE02 is returned by later reads until a poll overwrites it, neither touches the
keyboard queue. -/
def Obligations.KeyboardRegisterStores : Prop :=
  ∀ (s : State) (v : Word),
    (s.memWrite 0xFE00 v).peek 0xFE00 = v ∧
    (s.memWrite 0xFE00 v).readValue 0xFE00 = s.readValue 0xFE00 ∧
    (∀ x, ((s.memWrite 0xFE00 v).afterRead 0xFE00).peek x = (s.afterRead 0xFE00).peek x) ∧
    (s.memWrite 0xFE02 v).readValue 0xFE02 = v ∧
    (∀ x, x ≠ 0xFE00 → ((s.memWrite 0xFE02 v).afterRead x).peek 0xFE02 = v) ∧
    (s.kbd = [] → ((s.memWrite 0xFE02 v).afterRead 0xFE00).peek 0xFE02 = v) ∧
    (∀ b q, s.kbd = b :: q → (((s.memWrite 0xFE02 v).afterRead 0xFE00).peek 0xFE02).toNat = b.toNat) ∧
    (s.memWrite 0xFE00 v).kbd = s.kbd ∧ (s.memWrite 0xFE02 v).kbd = s.kbd

/-- The canonical form of memory (log 1, log 2): memories that read the same are the same. -/
def Obligations.CanonicalMemoriesAreEqual : Prop :=
  ∀ m m' : Memory, m.wf → m'.wf → (∀ a, a < 65536 → m.read a = m'.read a) → m = m'

/-! ### Images and reset -/

/-- R214: an image places its whole words from its origin on, clamped at 0xFFFF, and nothing else. That a trailing
odd byte and a file of fewer than two bytes place nothing is the spec's decision D18 (R216, log 11). -/
def Obligations.ImageLoadPlacesWords : Prop :=
  ∀ (m : Memory) (file : List Byte) (a : Word),
    (imageCovers file a → (loadImage m file).read a.toNat = imageWord file (a.toNat - imageOrigin file)) ∧
    (¬ imageCovers file a → (loadImage m file).read a.toNat = m.read a.toNat)

/-- R37: every piece of state at the first fetch (the empty console is the spec's decision D14 and the trap phase
its inference from R31, log 11), whatever the images; the last image that covers an address
wins; the keyboard queue holds what the host has delivered and nothing else. -/
def Obligations.LaunchState : Prop :=
  ∀ (images : List (List Byte)) (keys : List Byte),
    let s := keys.foldl State.deliverKey (State.launch images)
    (∀ r, s.readReg r = 0) ∧ s.pc = 0x3000 ∧ s.cond = 0b010 ∧ s.run = .running ∧ s.trapPhase = .none ∧
    s.conOut = [] ∧ s.kbd = keys ∧
    (∀ a, (∀ f ∈ images, ¬ imageCovers f a) → s.peek a = 0) ∧
    (∀ a pre f post, images = pre ++ f :: post → imageCovers f a → (∀ g ∈ post, ¬ imageCovers g a) →
      s.peek a = imageWord f (a.toNat - imageOrigin f))

/-! ### Operate instructions -/

/-- R110. -/
def Obligations.AddRegisterSums : Prop :=
  ∀ (dr sr1 : RegNo) (ign : BitVec 2) (sr2 : RegNo) (s : State),
    decode (0b0001#4 ++ dr ++ sr1 ++ 0b0#1 ++ ign ++ sr2) = .addReg dr sr1 ign sr2 ∧
    ∃ t, exec (.addReg dr sr1 ign sr2) s = .next t ∧
      (t.readReg dr).toNat = ((s.readReg sr1).toNat + (s.readReg sr2).toNat) % 2 ^ 16 ∧
      CondOf (t.readReg dr) t.cond ∧ t.pc = s.pc ∧ OnlyRegsPcCond s t [dr]

/-- R111. -/
def Obligations.AddImmediateSums : Prop :=
  ∀ (dr sr1 : RegNo) (imm5 : BitVec 5) (s : State),
    decode (0b0001#4 ++ dr ++ sr1 ++ 0b1#1 ++ imm5) = .addImm dr sr1 imm5 ∧
    ∃ t, exec (.addImm dr sr1 imm5) s = .next t ∧
      ((t.readReg dr).toNat : Int) = ((s.readReg sr1).toNat + imm5.toInt) % 2 ^ 16 ∧
      CondOf (t.readReg dr) t.cond ∧ t.pc = s.pc ∧ OnlyRegsPcCond s t [dr]

/-- R112. -/
def Obligations.AndRegisterMeets : Prop :=
  ∀ (dr sr1 : RegNo) (ign : BitVec 2) (sr2 : RegNo) (s : State),
    decode (0b0101#4 ++ dr ++ sr1 ++ 0b0#1 ++ ign ++ sr2) = .andReg dr sr1 ign sr2 ∧
    ∃ t, exec (.andReg dr sr1 ign sr2) s = .next t ∧
      (∀ i, (t.readReg dr).getLsbD i = ((s.readReg sr1).getLsbD i && (s.readReg sr2).getLsbD i)) ∧
      CondOf (t.readReg dr) t.cond ∧ t.pc = s.pc ∧ OnlyRegsPcCond s t [dr]

/-- R113: bits 15..5 of the immediate are copies of its bit 4. -/
def Obligations.AndImmediateMeets : Prop :=
  ∀ (dr sr1 : RegNo) (imm5 : BitVec 5) (s : State),
    decode (0b0101#4 ++ dr ++ sr1 ++ 0b1#1 ++ imm5) = .andImm dr sr1 imm5 ∧
    ∃ t, exec (.andImm dr sr1 imm5) s = .next t ∧
      (∀ i, i < 16 → (t.readReg dr).getLsbD i = ((s.readReg sr1).getLsbD i && imm5.getLsbD (min i 4))) ∧
      CondOf (t.readReg dr) t.cond ∧ t.pc = s.pc ∧ OnlyRegsPcCond s t [dr]

/-- NOT (R114). That SR is bits 8..6 is the spec's decision D6, taken from general knowledge (log 9). -/
def Obligations.NotComplements : Prop :=
  ∀ (dr sr : RegNo) (ign : BitVec 6) (s : State),
    decode (0b1001#4 ++ dr ++ sr ++ ign) = .not dr sr ign ∧
    ∃ t, exec (.not dr sr ign) s = .next t ∧
      (t.readReg dr).toNat = 0xFFFF - (s.readReg sr).toNat ∧
      CondOf (t.readReg dr) t.cond ∧ t.pc = s.pc ∧ OnlyRegsPcCond s t [dr]

/-! ### Data movement -/

/-- R120. -/
def Obligations.LdLoadsPcRelative : Prop :=
  ∀ (dr : RegNo) (off9 : BitVec 9) (s : State),
    decode (0b0010#4 ++ dr ++ off9) = .ld dr off9 ∧
    ((s.pcRel9 off9).toNat : Int) = (s.pc.toNat + off9.toInt) % 2 ^ 16 ∧
    ∃ t, exec (.ld dr off9) s = .next t ∧ MemReadOf s (s.pcRel9 off9) (t.readReg dr) t ∧
      CondOf (t.readReg dr) t.cond ∧ OnlyRegsCondMemKbd s t [dr]

/-- R121. -/
def Obligations.StStoresPcRelative : Prop :=
  ∀ (sr : RegNo) (off9 : BitVec 9) (s : State),
    decode (0b0011#4 ++ sr ++ off9) = .st sr off9 ∧
    ((s.pcRel9 off9).toNat : Int) = (s.pc.toNat + off9.toInt) % 2 ^ 16 ∧
    ∃ t, exec (.st sr off9) s = .next t ∧ OnlyStore s t (s.pcRel9 off9) (s.readReg sr)

/-- R122: BaseR is read before DR is written. -/
def Obligations.LdrLoadsBaseOffset : Prop :=
  ∀ (dr base : RegNo) (off6 : BitVec 6) (s : State),
    decode (0b0110#4 ++ dr ++ base ++ off6) = .ldr dr base off6 ∧
    ((s.baseOff base off6).toNat : Int) = ((s.readReg base).toNat + off6.toInt) % 2 ^ 16 ∧
    ∃ t, exec (.ldr dr base off6) s = .next t ∧ MemReadOf s (s.baseOff base off6) (t.readReg dr) t ∧
      CondOf (t.readReg dr) t.cond ∧ OnlyRegsCondMemKbd s t [dr]

/-- R123. -/
def Obligations.StrStoresBaseOffset : Prop :=
  ∀ (sr base : RegNo) (off6 : BitVec 6) (s : State),
    decode (0b0111#4 ++ sr ++ base ++ off6) = .str sr base off6 ∧
    ((s.baseOff base off6).toNat : Int) = ((s.readReg base).toNat + off6.toInt) % 2 ^ 16 ∧
    ∃ t, exec (.str sr base off6) s = .next t ∧ OnlyStore s t (s.baseOff base off6) (s.readReg sr)

/-- R124: two reads in order, the second at the word the first returned. -/
def Obligations.LdiLoadsThroughPointer : Prop :=
  ∀ (dr : RegNo) (off9 : BitVec 9) (s : State),
    decode (0b1010#4 ++ dr ++ off9) = .ldi dr off9 ∧
    ((s.pcRel9 off9).toNat : Int) = (s.pc.toNat + off9.toInt) % 2 ^ 16 ∧
    ∃ (p : Word) (u t : State), exec (.ldi dr off9) s = .next t ∧
      MemReadOf s (s.pcRel9 off9) p u ∧ MemReadOf u p (t.readReg dr) t ∧
      CondOf (t.readReg dr) t.cond ∧ OnlyRegsCondMemKbd s t [dr]

/-- R125: a read for the pointer, then a plain store where it points. -/
def Obligations.StiStoresThroughPointer : Prop :=
  ∀ (sr : RegNo) (off9 : BitVec 9) (s : State),
    decode (0b1011#4 ++ sr ++ off9) = .sti sr off9 ∧
    ((s.pcRel9 off9).toNat : Int) = (s.pc.toNat + off9.toInt) % 2 ^ 16 ∧
    ∃ u t : State, exec (.sti sr off9) s = .next t ∧
      MemReadOf s (s.pcRel9 off9) (s.readValue (s.pcRel9 off9)) u ∧
      t.peek (s.readValue (s.pcRel9 off9)) = s.readReg sr ∧
      (∀ x, x ≠ s.readValue (s.pcRel9 off9) → t.peek x = u.peek x) ∧
      t.kbd = u.kbd ∧ t.cond = s.cond ∧ OnlyRegsCondMemKbd s t []

/-- R126: the address itself, no memory access and no poll. -/
def Obligations.LeaLoadsAddress : Prop :=
  ∀ (dr : RegNo) (off9 : BitVec 9) (s : State),
    decode (0b1110#4 ++ dr ++ off9) = .lea dr off9 ∧
    ∃ t, exec (.lea dr off9) s = .next t ∧
      ((t.readReg dr).toNat : Int) = (s.pc.toNat + off9.toInt) % 2 ^ 16 ∧
      CondOf (t.readReg dr) t.cond ∧ t.pc = s.pc ∧ OnlyRegsPcCond s t [dr]

/-! ### Control transfer -/

/-- BR (R140), and its mask 000, the row NOP (R88, R91): taken exactly where the mask meets `cond`; mask 000 never,
mask 111 always where `cond` is one-hot. That the words with mask 000 decode to a constructor of their own is the
model's (log 7). -/
def Obligations.BranchFollowsFlags : Prop :=
  ∀ (nzp : BitVec 3) (off9 : BitVec 9) (s : State),
    decode (0b0000#4 ++ nzp ++ off9) = (if nzp = 0 then .nop off9 else .br nzp off9) ∧
    ∃ t u, exec (.br nzp off9) s = .next t ∧ exec (.nop off9) s = .next u ∧
      (nzp &&& s.cond ≠ 0 → (t.pc.toNat : Int) = (s.pc.toNat + off9.toInt) % 2 ^ 16) ∧
      (nzp &&& s.cond = 0 → t.pc = s.pc) ∧ (nzp = 0 → t.pc = s.pc) ∧
      (nzp = 0b111 → s.cond = 0b100 ∨ s.cond = 0b010 ∨ s.cond = 0b001 →
        (t.pc.toNat : Int) = (s.pc.toNat + off9.toInt) % 2 ^ 16) ∧
      t.cond = s.cond ∧ OnlyRegsPcCond s t [] ∧ u.pc = s.pc ∧ u.cond = s.cond ∧ OnlyRegsPcCond s u []

/-- R141, R144: JMP goes where its register says; RET is the JMP with base R7, in a constructor of its own (log 7). -/
def Obligations.JumpGoesToRegister : Prop :=
  ∀ (ignHi : BitVec 3) (base : RegNo) (ignLo : BitVec 6) (s : State),
    decode (0b1100#4 ++ ignHi ++ base ++ ignLo) =
      (if base = 7 then .ret ignHi ignLo else .jmp ignHi base ignLo) ∧
    ∃ t u, exec (.jmp ignHi base ignLo) s = .next t ∧ exec (.ret ignHi ignLo) s = .next u ∧
      t.pc = s.readReg base ∧ t.cond = s.cond ∧ OnlyRegsPcCond s t [] ∧
      u.pc = s.readReg 7 ∧ u.cond = s.cond ∧ OnlyRegsPcCond s u []

/-- R142. -/
def Obligations.JsrLinksAndBranches : Prop :=
  ∀ (off11 : BitVec 11) (s : State),
    decode (0b0100#4 ++ 0b1#1 ++ off11) = .jsr off11 ∧
    ∃ t, exec (.jsr off11) s = .next t ∧ t.readReg 7 = s.pc ∧
      (t.pc.toNat : Int) = (s.pc.toNat + off11.toInt) % 2 ^ 16 ∧
      t.cond = s.cond ∧ OnlyRegsPcCond s t [7]

/-- R143: the base register is read after the link write, so `JSRR R7` falls through. -/
def Obligations.JsrrLinksThenReadsBase : Prop :=
  ∀ (ignHi : BitVec 2) (base : RegNo) (ignLo : BitVec 6) (s : State),
    decode (0b0100#4 ++ 0b0#1 ++ ignHi ++ base ++ ignLo) = .jsrr ignHi base ignLo ∧
    ∃ t, exec (.jsrr ignHi base ignLo) s = .next t ∧ t.readReg 7 = s.pc ∧
      t.pc = (if base = 7 then s.pc else s.readReg base) ∧
      t.cond = s.cond ∧ OnlyRegsPcCond s t [7]

/-! ### TRAP and the services -/

/-- R150, R161: the vector selects the service; every TRAP writes R7 first, leaves `pc` and every register but
R7 and, in GETC and IN, R0; every other vector faults, R7 written, nothing else done. The spec marks the write
of R7 (D1), its order before the fault (D9) and FAULTED itself (D7) as its own decisions (log 11); that each
service has a constructor of its own is the model's (log 7), and so are the hold of GETC and IN as
a next state (log 4) and the end of every PUTS and PUTSP (log 5, log 6). -/
def Obligations.TrapSelectsService : Prop :=
  ∀ (ign : BitVec 4) (s : State),
    (decode (0b1111#4 ++ ign ++ 0x20#8) = .getc ign ∧ exec (.trap ign 0x20) s = exec (.getc ign) s) ∧
    (decode (0b1111#4 ++ ign ++ 0x21#8) = .out ign ∧ exec (.trap ign 0x21) s = exec (.out ign) s) ∧
    (decode (0b1111#4 ++ ign ++ 0x22#8) = .puts ign ∧ exec (.trap ign 0x22) s = exec (.puts ign) s) ∧
    (decode (0b1111#4 ++ ign ++ 0x23#8) = .inChar ign ∧ exec (.trap ign 0x23) s = exec (.inChar ign) s) ∧
    (decode (0b1111#4 ++ ign ++ 0x24#8) = .putsp ign ∧ exec (.trap ign 0x24) s = exec (.putsp ign) s) ∧
    (decode (0b1111#4 ++ ign ++ 0x25#8) = .halt ign ∧ exec (.trap ign 0x25) s = exec (.halt ign) s) ∧
    (∀ vect : BitVec 8, ∃ t, exec (.trap ign vect) s = .next t ∧ t.readReg 7 = s.pc ∧ t.pc = s.pc ∧
      (∀ r, r ≠ 7 → r ≠ 0 → t.readReg r = s.readReg r) ∧
      (vect ≠ 0x20 → vect ≠ 0x23 → t.readReg 0 = s.readReg 0 ∧ t.cond = s.cond)) ∧
    ∀ vect : BitVec 8, vect.toNat < 0x20 ∨ 0x25 < vect.toNat →
      decode (0b1111#4 ++ ign ++ vect) = .trap ign vect ∧
      ∃ t, exec (.trap ign vect) s = .next t ∧
        t.run = .faulted .unknownTrapVector (0b1111#4 ++ ign ++ vect) ∧ TrapFrame s t [] ∧
        t.cond = s.cond ∧ (∀ a, t.peek a = s.peek a) ∧ t.trapPhase = s.trapPhase ∧ t.kbd = s.kbd ∧
        t.conOut = s.conOut

/-- GETC (R153) with a byte ready; GETC held, R7 written, without one; and the held GETC resumed by a byte, with
no step before it. That the flags are set is the spec's decision D3 (log 11); that the hold is a state between two
steps is the model's (log 4). -/
def Obligations.GetcTakesOneByte : Prop :=
  ∀ (ign : BitVec 4) (s : State),
    (∀ b q, s.kbd = b :: q → ∃ t, exec (.getc ign) s = .next t ∧ (t.readReg 0).toNat = b.toNat ∧
      CondOf (t.readReg 0) t.cond ∧ t.kbd = q ∧ t.trapPhase = .none ∧ TrapFrame s t [0] ∧
      (∀ a, t.peek a = s.peek a) ∧ t.run = s.run ∧ t.conOut = s.conOut) ∧
    (s.kbd = [] → ∃ t, exec (.getc ign) s = .next t ∧ t.trapPhase = .waitGetc ∧ TrapFrame s t [] ∧
      t.cond = s.cond ∧ t.kbd = [] ∧ (∀ a, t.peek a = s.peek a) ∧ t.run = s.run ∧ t.conOut = s.conOut) ∧
    (s.run = .running → s.trapPhase = .waitGetc →
      (s.kbd = [] → ∀ t, step s ≠ .next t) ∧
      ∀ b q, s.kbd = b :: q → ∃ t, step s = .next t ∧ (t.readReg 0).toNat = b.toNat ∧
        CondOf (t.readReg 0) t.cond ∧ t.kbd = q ∧ t.trapPhase = .none ∧ t.pc = s.pc ∧
        (∀ r, r ≠ 0 → t.readReg r = s.readReg r) ∧
        (∀ a, t.peek a = s.peek a) ∧ t.run = s.run ∧ t.conOut = s.conOut)

/-- IN (R156): as GETC, with the prompt before the hold and the echo after it. The zero extension (D4), the flags
(D3), the prompt before the hold (D13) and its bytes (D22) are the spec's own decisions (log 10, log 11); the hold
between two steps is the model's (log 4). -/
def Obligations.InPromptsEchoesAndTakesOneByte : Prop :=
  ∀ (ign : BitVec 4) (s : State),
    let prompt : List Byte := [0x45, 0x6E, 0x74, 0x65, 0x72, 0x20, 0x61, 0x20, 0x63, 0x68, 0x61, 0x72, 0x61,
      0x63, 0x74, 0x65, 0x72, 0x3A, 0x20]
    (∀ b q, s.kbd = b :: q → ∃ t, exec (.inChar ign) s = .next t ∧ (t.readReg 0).toNat = b.toNat ∧
      CondOf (t.readReg 0) t.cond ∧ t.kbd = q ∧ t.trapPhase = .none ∧ TrapFrame s t [0] ∧
      (∀ a, t.peek a = s.peek a) ∧ t.run = s.run ∧ t.conOut = s.conOut ++ prompt ++ [b]) ∧
    (s.kbd = [] → ∃ t, exec (.inChar ign) s = .next t ∧ t.trapPhase = .waitIn ∧ TrapFrame s t [] ∧
      t.cond = s.cond ∧ t.kbd = [] ∧ (∀ a, t.peek a = s.peek a) ∧ t.run = s.run ∧
      t.conOut = s.conOut ++ prompt) ∧
    (s.run = .running → s.trapPhase = .waitIn →
      (s.kbd = [] → ∀ t, step s ≠ .next t) ∧
      ∀ b q, s.kbd = b :: q → ∃ t, step s = .next t ∧ (t.readReg 0).toNat = b.toNat ∧
        CondOf (t.readReg 0) t.cond ∧ t.kbd = q ∧ t.trapPhase = .none ∧ t.pc = s.pc ∧
        (∀ r, r ≠ 0 → t.readReg r = s.readReg r) ∧
        (∀ a, t.peek a = s.peek a) ∧ t.run = s.run ∧ t.conOut = s.conOut ++ [b])

/-- OUT (R154), with what TRAP and any service do around it: R7 takes the incremented `pc` (R150, the spec's decision
D1, log 11) and the rest stays (R151). -/
def Obligations.OutWritesLowByte : Prop :=
  ∀ (ign : BitVec 4) (s : State),
    ∃ t, exec (.out ign) s = .next t ∧ t.conOut = s.conOut ++ [lowChar (s.readReg 0)] ∧ TrapFrame s t [] ∧
      t.cond = s.cond ∧ t.kbd = s.kbd ∧ (∀ a, t.peek a = s.peek a) ∧ t.run = s.run ∧
      t.trapPhase = s.trapPhase

/-- PUTS completes from every state and does exactly what the unbounded loop of R155 does. That each word is
read by a polling read is the spec's decision D12 (log 11); that the loop ends is the model's (log 5, log 6):
the queue is finite and no byte arrives inside a step. -/
def Obligations.PutsRunsItsLoop : Prop :=
  ∀ (ign : BitVec 4) (s : State),
    ∃ t bs u, exec (.puts ign) s = .next t ∧
      StringLoop (fun w => [lowChar w]) s (s.readReg 0) bs u ∧ t.conOut = s.conOut ++ bs ∧
      (∀ a, t.peek a = u.peek a) ∧ t.kbd = u.kbd ∧ TrapFrame s t [] ∧ t.cond = s.cond ∧ t.run = s.run ∧
      t.trapPhase = s.trapPhase

/-- The same for PUTSP (R157), two characters a word, low byte first. D12 (log 11), log 5 and log 6 as for PUTS. -/
def Obligations.PutspRunsItsLoop : Prop :=
  ∀ (ign : BitVec 4) (s : State),
    ∃ t bs u, exec (.putsp ign) s = .next t ∧
      StringLoop packedChars s (s.readReg 0) bs u ∧ t.conOut = s.conOut ++ bs ∧
      (∀ a, t.peek a = u.peek a) ∧ t.kbd = u.kbd ∧ TrapFrame s t [] ∧ t.cond = s.cond ∧ t.run = s.run ∧
      t.trapPhase = s.trapPhase

/-- PUTS and PUTSP on a string that stays clear of 0xFE00: exactly its characters, and memory and keyboard
untouched (from R155, R157). -/
def Obligations.PlainStringIsPrinted : Prop :=
  ∀ (ign : BitVec 4) (s : State) (ws : List Word), StringAt s (s.readReg 0) ws →
    (∃ t, exec (.puts ign) s = .next t ∧ t.conOut = s.conOut ++ ws.map lowChar ∧
      (∀ a, t.peek a = s.peek a) ∧ t.kbd = s.kbd) ∧
    (∃ t, exec (.putsp ign) s = .next t ∧ t.conOut = s.conOut ++ ws.flatMap packedChars ∧
      (∀ a, t.peek a = s.peek a) ∧ t.kbd = s.kbd)

/-- HALT (R158), and that no step follows it (R30). The message's bytes are the spec's decision D22 (log 10). -/
def Obligations.HaltPrintsAndStops : Prop :=
  ∀ (ign : BitVec 4) (s : State),
    ∃ t, exec (.halt ign) s = .next t ∧ t.run = .halted ∧
      t.conOut = s.conOut ++ [0x48, 0x41, 0x4C, 0x54, 0x0A] ∧ TrapFrame s t [] ∧
      t.cond = s.cond ∧ t.kbd = s.kbd ∧ (∀ a, t.peek a = s.peek a) ∧ t.trapPhase = s.trapPhase ∧
      ∀ u, step t ≠ .next u

/-- R159: RTI takes its fault and changes nothing else. -/
def Obligations.RtiFaults : Prop :=
  ∀ (ign : BitVec 12) (s : State),
    decode (0b1000#4 ++ ign) = .rti ign ∧
    ∃ t, exec (.rti ign) s = .next t ∧ t.run = .faulted .rtiUnsupported (0b1000#4 ++ ign) ∧ OnlyRun s t

/-- R160: the reserved opcode takes its fault and changes nothing else. -/
def Obligations.ReservedOpcodeFaults : Prop :=
  ∀ (ign : BitVec 12) (s : State),
    decode (0b1101#4 ++ ign) = .res ign ∧
    ∃ t, exec (.res ign) s = .next t ∧ t.run = .faulted .reservedOpcode (0b1101#4 ++ ign) ∧ OnlyRun s t

/-! ### The step -/

/-- From R11, between instructions: the fetch is a memory read at `pc`, `pc` is incremented modulo 2^16, and the
decoded word is executed whole from there; and where the core is not RUNNING there is no step. -/
def Obligations.StepRunsTheDecodedWord : Prop :=
  ∀ s : State,
    (s.run = .running → s.trapPhase = .none →
      ∃ w u, MemReadOf s s.pc w u ∧ u.pc.toNat = (s.pc.toNat + 1) % 2 ^ 16 ∧
        (∀ r, u.readReg r = s.readReg r) ∧ u.cond = s.cond ∧ u.run = s.run ∧ u.trapPhase = s.trapPhase ∧
        u.conOut = s.conOut ∧ step s = exec (decode w) u) ∧
    (s.run ≠ .running → ∀ t, step s ≠ .next t)

/-- An instruction's word at `pc` (anywhere but at 0xFE00, where no stored word is fetched) is what the step
runs, from the state whose `pc` alone is incremented. -/
def Obligations.EncodedInstructionRuns : Prop :=
  ∀ (i : Instr) (s : State), i.wellFormed = true → s.run = .running → s.trapPhase = .none →
    s.pc ≠ 0xFE00 → s.peek s.pc = encode i → step s = exec i (s.setPc (s.pc + 1))

/-- The core has a next state exactly while it is RUNNING and not held for a key it does not have: no word,
no data and no register value ever stops it otherwise. -/
def Obligations.CoreStepsExactlyWhenEnabled : Prop :=
  ∀ s : State, (∃ t, step s = .next t) ↔ s.run = .running ∧ (s.trapPhase = .none ∨ s.kbd ≠ [])

/-- Faults (R180): every one of the 65,536 words completes from every running state, and the run state it leaves is
told by the word alone: one of the three faults with its code and the word recorded, HALTED after HALT, else
RUNNING; and a service resumed from its hold never faults. The names and codes are the spec's decision D8, FAULTED
is D7, R7 before the fault is D9 (log 11); that a held GETC or IN is a next state and is resumed by a later step is
the model's (log 4), and so is the end of every PUTS and PUTSP (log 5, log 6). -/
def Obligations.RunStateAfterEveryWord : Prop :=
  (∀ (w : Word) (s : State), s.run = .running →
    ∃ t, exec (decode w) s = .next t ∧
      (w.toNat / 4096 = 8 → t.run = .faulted .rtiUnsupported w ∧ Cause.rtiUnsupported.code = 1) ∧
      (w.toNat / 4096 = 13 → t.run = .faulted .reservedOpcode w ∧ Cause.reservedOpcode.code = 2) ∧
      (w.toNat / 4096 = 15 → ¬ hasService w →
        t.run = .faulted .unknownTrapVector w ∧ Cause.unknownTrapVector.code = 3 ∧ t.readReg 7 = s.pc) ∧
      (w.toNat / 4096 = 15 → w.toNat % 256 = 0x25 → t.run = .halted) ∧
      (w.toNat / 4096 ≠ 8 → w.toNat / 4096 ≠ 13 →
        (w.toNat / 4096 = 15 → hasService w ∧ w.toNat % 256 ≠ 0x25) → t.run = .running)) ∧
  ∀ s t : State, step s = .next t → s.trapPhase ≠ .none → t.run = .running

/-- From R66, which the spec derives from R55 and R64: what ST, STR or STI puts at the address of the next
instruction is what the next step runs. At 0xFE00 no stored word is ever fetched (R222). -/
def Obligations.StoreIsSeenByNextFetch : Prop :=
  ∀ (i : Instr) (sr : RegNo) (s : State), s.run = .running → s.trapPhase = .none →
    s.pc ≠ 0xFE00 → s.pc + 1 ≠ 0xFE00 → s.peek s.pc = encode i →
    i.storeReg = some sr → storeAddr i (s.setPc (s.pc + 1)) = some (s.pc + 1) →
    ∃ t, step s = .next t ∧ t.pc = s.pc + 1 ∧
      step t = exec (decode (s.readReg sr)) (t.setPc (s.pc + 2))

/-- R222, which the spec derives from R53 and R159, a fetch being a polling read by its decision D16 (log 11): a
fetch from 0xFE00 polls: no byte, a no-op; a byte, taken into KBDR, and the fault of 0x8000. A fetch from 0xFE02
of a word a poll put there is a no-op. -/
def Obligations.FetchFromKeyboardRegisters : Prop :=
  ∀ s : State, s.run = .running → s.trapPhase = .none →
    (s.pc = 0xFE00 → s.kbd = [] → ∃ t, step s = .next t ∧ t.pc = 0xFE01 ∧ t.run = .running ∧
      t.kbd = [] ∧ t.peek 0xFE00 = 0 ∧ (∀ a, a ≠ 0xFE00 → t.peek a = s.peek a) ∧
      t.cond = s.cond ∧ t.conOut = s.conOut ∧ ∀ r, t.readReg r = s.readReg r) ∧
    (s.pc = 0xFE00 → ∀ b q, s.kbd = b :: q → ∃ t, step s = .next t ∧ t.pc = 0xFE01 ∧
      t.run = .faulted .rtiUnsupported 0x8000 ∧ t.kbd = q ∧ (t.peek 0xFE02).toNat = b.toNat ∧
      t.peek 0xFE00 = 0x8000 ∧ (∀ a, a ≠ 0xFE00 → a ≠ 0xFE02 → t.peek a = s.peek a) ∧
      t.cond = s.cond ∧ t.conOut = s.conOut ∧ ∀ r, t.readReg r = s.readReg r) ∧
    (s.pc = 0xFE02 → (s.peek 0xFE02).toNat < 256 → ∃ t, step s = .next t ∧ t.pc = 0xFE03 ∧
      t.run = .running ∧ t.cond = s.cond ∧ t.conOut = s.conOut ∧ t.kbd = s.kbd ∧
      (∀ a, t.peek a = s.peek a) ∧ ∀ r, t.readReg r = s.readReg r)

/-! ### Rules over all instructions -/

/-- From R27: the instructions with a DR take `cond` from the value they leave in it, GETC and IN from R0 when they
take a byte, and no other instruction changes it. D2 and D3 are the spec's decisions (log 11); the hold of GETC and
IN as a next state is the model's (log 4). -/
def Obligations.FlagsAreSetByTheirWritersOnly : Prop :=
  ∀ (i : Instr) (s t : State), i.wellFormed = true → exec i s = .next t →
    (∀ r, i.destReg = some r → CondOf (t.readReg r) t.cond) ∧
    (i.readsKey = true → s.kbd ≠ [] → CondOf (t.readReg 0) t.cond) ∧
    (i.readsKey = true → s.kbd = [] → t.cond = s.cond) ∧
    (i.destReg = none → i.readsKey = false → t.cond = s.cond)

/-- From R27: only BR reads `cond`: from states that differ in it alone, any other instruction leaves states that
differ in it alone. -/
def Obligations.FlagsAreReadByBranchesOnly : Prop :=
  ∀ (i : Instr) (s t : State) (c : BitVec 3), (∀ nzp off9, i ≠ .br nzp off9) → exec i s = .next t →
    ∃ c', exec i (s.setCond c) = .next (t.setCond c')

/-- From R22, R145 and R151: a register changes only as the DR of its instruction, as R7 by a link write of the
incremented `pc`, or as R0 by GETC and IN. -/
def Obligations.RegistersChangeOnlyAsNamed : Prop :=
  ∀ (i : Instr) (s t : State), i.wellFormed = true → exec i s = .next t →
    (i.links = true → t.readReg 7 = s.pc) ∧
    ∀ r, t.readReg r ≠ s.readReg r →
      i.destReg = some r ∨ (i.links = true ∧ r = 7) ∨ (i.readsKey = true ∧ r = 0 ∧ s.kbd ≠ [])

/-- From R24: beyond the fetch increment, only BR, JMP, RET, JSR and JSRR write `pc`. -/
def Obligations.OnlyTransfersWritePc : Prop :=
  ∀ (i : Instr) (s t : State), exec i s = .next t → i.transfers = false → t.pc = s.pc

/-- A word of memory changes only by the store of ST, STR or STI, at the address its meaning computes, or by a
poll of an instruction that makes a `MemRead` (R55): KBSR, and KBDR where a byte is there to take (R54). Every other
instruction leaves all of memory as it was. -/
def Obligations.MemoryChangesOnlyByStoresAndPolls : Prop :=
  ∀ (i : Instr) (s t : State), i.wellFormed = true → exec i s = .next t →
    ∀ a, t.peek a ≠ s.peek a →
      storeAddr i s = some a ∨ (i.readsMemory = true ∧ (a = 0xFE00 ∨ (a = 0xFE02 ∧ s.kbd ≠ [])))

/-- From R33: the console receives bytes from OUT, PUTS, IN, PUTSP and HALT only, and nothing is ever removed. -/
def Obligations.ConsoleOnlyGrows : Prop :=
  (∀ (i : Instr) (s t : State), i.wellFormed = true → exec i s = .next t → i.prints = false →
    t.conOut = s.conOut) ∧
  ∀ s t : State, step s = .next t → s.conOut <+: t.conOut

/-- From R32: the core never appends to the keyboard queue: a step leaves a tail of it; the host's delivery appends
one byte and changes nothing else. -/
def Obligations.KeyboardQueueIsTakenFromItsHead : Prop :=
  (∀ s t : State, step s = .next t → t.kbd <:+ s.kbd) ∧
  ∀ (s : State) (b : Byte), (s.deliverKey b).kbd = s.kbd ++ [b] ∧ (s.deliverKey b).setKbd s.kbd = s

/-- The ignored bits of a word play no part (R86), but in the word a fault records. -/
def Obligations.IgnoredBitsPlayNoPart : Prop :=
  ∀ (w w' : Word) (s : State), w &&& usedBits w = w' &&& usedBits w →
    (w.toNat / 4096 = 15 → hasService w) → exec (decode w) s = exec (decode w') s

/-! ### Encoding -/

/-- R85: every word matches exactly one primary row, it is the row of the instruction it decodes to, and the six
service rows are matched by exactly the words that decode to their services. -/
def Obligations.EveryWordHasOneRow : Prop :=
  ∀ w : Word, (decode w).primaryRow ∈ primaryRows ∧
    (∀ row ∈ primaryRows, w &&& row.mask = row.value ↔ row = (decode w).primaryRow) ∧
    (w &&& 0xF0FF = 0xF020 ↔ ∃ ign, decode w = .getc ign) ∧
    (w &&& 0xF0FF = 0xF021 ↔ ∃ ign, decode w = .out ign) ∧
    (w &&& 0xF0FF = 0xF022 ↔ ∃ ign, decode w = .puts ign) ∧
    (w &&& 0xF0FF = 0xF023 ↔ ∃ ign, decode w = .inChar ign) ∧
    (w &&& 0xF0FF = 0xF024 ↔ ∃ ign, decode w = .putsp ign) ∧
    (w &&& 0xF0FF = 0xF025 ↔ ∃ ign, decode w = .halt ign)

/-- Decoding the word of a well-formed instruction gives it back, every field at every value. -/
def Obligations.DecodeOfEncode : Prop :=
  ∀ i : Instr, i.wellFormed = true → decode (encode i) = i

/-- Every word decodes to a well-formed instruction whose word it is: no bit of a word is dropped. -/
def Obligations.EncodeOfDecode : Prop :=
  ∀ w : Word, (decode w).wellFormed = true ∧ encode (decode w) = w

/-- Words written out from the spec's tables (spec/95_test_vectors.md 2.3 and Part 1), one of each family. -/
def Obligations.SpecWordsDecode : Prop :=
  decode 0b0001_000_001_0_11_010 = .addReg 0 1 0b11 2 ∧ decode 0b0001_001_001_1_11111 = .addImm 1 1 0b11111 ∧
  decode 0b1010_000_000000010 = .ldi 0 2 ∧ decode 0b0000_111_111111111 = .br 0b111 0b111111111 ∧
  decode 0b0100_0_11_010_111111 = .jsrr 0b11 2 0b111111 ∧ decode 0b1111_0001_00100101 = .halt 1 ∧
  decode 0b1111_0000_00100110 = .trap 0 0x26 ∧ decode 0b1000_000000000000 = .rti 0

/-! ### The invariant and runs -/

/-- The invariant holds at launch, whatever the images. -/
def Obligations.LaunchMeetsInvariant : Prop :=
  State.reset.Inv ∧ ∀ images, (State.launch images).Inv

/-- Every step keeps the invariant. Its clauses about a held service are about the hold of log 4. -/
def Obligations.StepKeepsInvariant : Prop :=
  ∀ s t : State, s.Inv → step s = .next t → t.Inv

/-- Every state a run reaches, for every image and every keyboard schedule, meets the invariant, and has a next
state wherever it is RUNNING and not held for a key it lacks. The hold and the walks' end are the model's (log 4,
log 5, log 6). -/
def Obligations.RunsKeepInvariantAndProgress : Prop :=
  ∀ (images : List (List Byte)) (s : State), Reach images s → s.Inv ∧
    (s.run = .running → (s.trapPhase = .none ∨ s.kbd ≠ []) → ∃ t, step s = .next t ∧ t.Inv)

/-- A key delivered before a step or after it: the same state, for every step in which no poll and no wait finds
the queue empty, whatever the step leaves on the queue. It is the ground of log 5. -/
def Obligations.DeliveryCommutesWithStep : Prop :=
  ∀ (s t : State) (b : Byte), step s = .next t → ¬ StepMisses s →
    step (s.deliverKey b) = .next (t.deliverKey b)
end

