-- ==== Sys2Proof/Laws/Decode.lean ====
section
/-! SUPPORT. Words as numbers: what a field of a word is (spec/00_scope.md R5), and what the word of each
instruction is, the sum of its fields at their places (spec/30_encoding.md R82). -/

namespace Sys2Proof

/-- A field as a number. -/
theorem bits_toNat (w : Word) (lo len : Nat) : (bits w lo len).toNat = w.toNat / 2 ^ lo % 2 ^ len := by
  simp [bits, Nat.shiftRight_eq_div_pow]

/-- A concatenation as a number: the high part counts in units of the low part's width. -/
theorem toNat_append_add {v w : Nat} (x : BitVec v) (y : BitVec w) :
    (x ++ y).toNat = x.toNat * 2 ^ w + y.toNat := by
  rw [BitVec.toNat_append, Nat.shiftLeft_eq, Nat.mul_comm, ← Nat.two_pow_add_eq_or_of_lt y.isLt]

theorem encode_br_toNat (nzp : BitVec 3) (off9 : BitVec 9) :
    (encode (.br nzp off9)).toNat = 0x0000 + nzp.toNat * 512 + off9.toNat := by
  simp only [encode]
  repeat rw [toNat_append_add]
  simp

theorem encode_addReg_toNat (dr : RegNo) (sr1 : RegNo) (ign : BitVec 2) (sr2 : RegNo) :
    (encode (.addReg dr sr1 ign sr2)).toNat = 0x1000 + dr.toNat * 512 + sr1.toNat * 64 + ign.toNat * 8 + sr2.toNat := by
  simp only [encode]
  repeat rw [toNat_append_add]
  simp
  omega

theorem encode_addImm_toNat (dr : RegNo) (sr1 : RegNo) (imm5 : BitVec 5) :
    (encode (.addImm dr sr1 imm5)).toNat = 0x1020 + dr.toNat * 512 + sr1.toNat * 64 + imm5.toNat := by
  simp only [encode]
  repeat rw [toNat_append_add]
  simp
  omega

theorem encode_ld_toNat (dr : RegNo) (off9 : BitVec 9) :
    (encode (.ld dr off9)).toNat = 0x2000 + dr.toNat * 512 + off9.toNat := by
  simp only [encode]
  repeat rw [toNat_append_add]
  simp
  omega

theorem encode_st_toNat (sr : RegNo) (off9 : BitVec 9) :
    (encode (.st sr off9)).toNat = 0x3000 + sr.toNat * 512 + off9.toNat := by
  simp only [encode]
  repeat rw [toNat_append_add]
  simp
  omega

theorem encode_jsr_toNat (off11 : BitVec 11) :
    (encode (.jsr off11)).toNat = 0x4800 + off11.toNat := by
  simp only [encode]
  repeat rw [toNat_append_add]
  simp

theorem encode_jsrr_toNat (ignHi : BitVec 2) (base : RegNo) (ignLo : BitVec 6) :
    (encode (.jsrr ignHi base ignLo)).toNat = 0x4000 + ignHi.toNat * 512 + base.toNat * 64 + ignLo.toNat := by
  simp only [encode]
  repeat rw [toNat_append_add]
  simp
  omega

theorem encode_andReg_toNat (dr : RegNo) (sr1 : RegNo) (ign : BitVec 2) (sr2 : RegNo) :
    (encode (.andReg dr sr1 ign sr2)).toNat = 0x5000 + dr.toNat * 512 + sr1.toNat * 64 + ign.toNat * 8 + sr2.toNat := by
  simp only [encode]
  repeat rw [toNat_append_add]
  simp
  omega

theorem encode_andImm_toNat (dr : RegNo) (sr1 : RegNo) (imm5 : BitVec 5) :
    (encode (.andImm dr sr1 imm5)).toNat = 0x5020 + dr.toNat * 512 + sr1.toNat * 64 + imm5.toNat := by
  simp only [encode]
  repeat rw [toNat_append_add]
  simp
  omega

theorem encode_ldr_toNat (dr : RegNo) (base : RegNo) (off6 : BitVec 6) :
    (encode (.ldr dr base off6)).toNat = 0x6000 + dr.toNat * 512 + base.toNat * 64 + off6.toNat := by
  simp only [encode]
  repeat rw [toNat_append_add]
  simp
  omega

theorem encode_str_toNat (sr : RegNo) (base : RegNo) (off6 : BitVec 6) :
    (encode (.str sr base off6)).toNat = 0x7000 + sr.toNat * 512 + base.toNat * 64 + off6.toNat := by
  simp only [encode]
  repeat rw [toNat_append_add]
  simp
  omega

theorem encode_rti_toNat (ign : BitVec 12) :
    (encode (.rti ign)).toNat = 0x8000 + ign.toNat := by
  simp only [encode]
  repeat rw [toNat_append_add]
  simp

theorem encode_not_toNat (dr : RegNo) (sr : RegNo) (ign : BitVec 6) :
    (encode (.not dr sr ign)).toNat = 0x9000 + dr.toNat * 512 + sr.toNat * 64 + ign.toNat := by
  simp only [encode]
  repeat rw [toNat_append_add]
  simp
  omega

theorem encode_ldi_toNat (dr : RegNo) (off9 : BitVec 9) :
    (encode (.ldi dr off9)).toNat = 0xA000 + dr.toNat * 512 + off9.toNat := by
  simp only [encode]
  repeat rw [toNat_append_add]
  simp
  omega

theorem encode_sti_toNat (sr : RegNo) (off9 : BitVec 9) :
    (encode (.sti sr off9)).toNat = 0xB000 + sr.toNat * 512 + off9.toNat := by
  simp only [encode]
  repeat rw [toNat_append_add]
  simp
  omega

theorem encode_jmp_toNat (ignHi : BitVec 3) (base : RegNo) (ignLo : BitVec 6) :
    (encode (.jmp ignHi base ignLo)).toNat = 0xC000 + ignHi.toNat * 512 + base.toNat * 64 + ignLo.toNat := by
  simp only [encode]
  repeat rw [toNat_append_add]
  simp
  omega

theorem encode_res_toNat (ign : BitVec 12) :
    (encode (.res ign)).toNat = 0xD000 + ign.toNat := by
  simp only [encode]
  repeat rw [toNat_append_add]
  simp

theorem encode_lea_toNat (dr : RegNo) (off9 : BitVec 9) :
    (encode (.lea dr off9)).toNat = 0xE000 + dr.toNat * 512 + off9.toNat := by
  simp only [encode]
  repeat rw [toNat_append_add]
  simp
  omega

theorem encode_trap_toNat (ign : BitVec 4) (vect : BitVec 8) :
    (encode (.trap ign vect)).toNat = 0xF000 + ign.toNat * 256 + vect.toNat := by
  simp only [encode]
  repeat rw [toNat_append_add]
  simp
  omega

theorem encode_getc_toNat (ign : BitVec 4) :
    (encode (.getc ign)).toNat = 0xF020 + ign.toNat * 256 := by
  simp only [encode]
  repeat rw [toNat_append_add]
  simp
  omega

theorem encode_out_toNat (ign : BitVec 4) :
    (encode (.out ign)).toNat = 0xF021 + ign.toNat * 256 := by
  simp only [encode]
  repeat rw [toNat_append_add]
  simp
  omega

theorem encode_puts_toNat (ign : BitVec 4) :
    (encode (.puts ign)).toNat = 0xF022 + ign.toNat * 256 := by
  simp only [encode]
  repeat rw [toNat_append_add]
  simp
  omega

theorem encode_inChar_toNat (ign : BitVec 4) :
    (encode (.inChar ign)).toNat = 0xF023 + ign.toNat * 256 := by
  simp only [encode]
  repeat rw [toNat_append_add]
  simp
  omega

theorem encode_putsp_toNat (ign : BitVec 4) :
    (encode (.putsp ign)).toNat = 0xF024 + ign.toNat * 256 := by
  simp only [encode]
  repeat rw [toNat_append_add]
  simp
  omega

theorem encode_halt_toNat (ign : BitVec 4) :
    (encode (.halt ign)).toNat = 0xF025 + ign.toNat * 256 := by
  simp only [encode]
  repeat rw [toNat_append_add]
  simp
  omega

theorem encode_ret_toNat (ignHi : BitVec 3) (ignLo : BitVec 6) :
    (encode (.ret ignHi ignLo)).toNat = 0xC1C0 + ignHi.toNat * 512 + ignLo.toNat := by
  simp only [encode]
  repeat rw [toNat_append_add]
  simp
  omega

theorem encode_nop_toNat (off9 : BitVec 9) :
    (encode (.nop off9)).toNat = 0x0000 + off9.toNat := by
  simp only [encode]
  repeat rw [toNat_append_add]
  simp

end Sys2Proof
end

