-- ==== Sys2Proof/Laws/Memory.lean ====
section
/-! SUPPORT. The laws of memory as a list of cells: a read after a write, and that every operation keeps the
canonical form. -/

namespace Sys2Proof.Machine

@[simp] theorem Memory.read_nil (a : Nat) : Memory.read [] a = 0 := rfl

theorem Memory.read_cons (b : Nat) (v : Word) (m : Memory) (a : Nat) :
    Memory.read ((b, v) :: m) a = if b = a then v else Memory.read m a := rfl

theorem Memory.erase_cons (c : Cell) (m : Memory) (a : Nat) :
    Memory.erase (c :: m) a = if c.1 = a then Memory.erase m a else c :: Memory.erase m a := by
  by_cases h : c.1 = a <;> simp [Memory.erase, h]

/-- An erased address reads as unlisted, every other address as before. -/
theorem Memory.read_erase (m : Memory) (a x : Nat) :
    Memory.read (m.erase a) x = if a = x then 0 else Memory.read m x := by
  induction m with
  | nil => simp [Memory.erase]
  | cons c m ih =>
    obtain ⟨b, v⟩ := c
    rw [Memory.erase_cons, Memory.read_cons]
    dsimp only
    split
    · subst b; rw [ih]; split <;> simp [*]
    · rw [Memory.read_cons, ih]; split <;> split <;> simp_all

/-- No cell of an erased memory lists the address. -/
theorem Memory.erase_ne (m : Memory) (a : Nat) : ∀ c ∈ m.erase a, c.1 ≠ a := by
  intro c hc
  simpa using (List.mem_filter.mp hc).2

/-- A cell put into a memory that lists no cell for its address reads back, and hides nothing. -/
theorem Memory.read_insert (m : Memory) (a : Nat) (v : Word) (h : ∀ c ∈ m, c.1 ≠ a) (x : Nat) :
    Memory.read (m.insert a v) x = if a = x then v else Memory.read m x := by
  induction m with
  | nil => simp [Memory.insert, Memory.read_cons]
  | cons c m ih =>
    obtain ⟨b, u⟩ := c
    have hb : b ≠ a := h (b, u) (by simp)
    have ih := ih (fun c hc => h c (by simp [hc]))
    unfold Memory.insert
    split
    · rw [Memory.read_cons]
    · rw [Memory.read_cons, Memory.read_cons, ih]
      split <;> split <;> simp_all

/-- Reading any address after a write: the word written there, and every other word as before. -/
theorem Memory.read_write (m : Memory) (a : Nat) (v : Word) (x : Nat) :
    Memory.read (m.write a v) x = if a = x then v else Memory.read m x := by
  unfold Memory.write
  split
  · rename_i hv; rw [Memory.read_erase, hv]; rfl
  · rw [Memory.read_insert _ _ _ (m.erase_ne a), Memory.read_erase]; split <;> rfl

theorem Memory.wf_nil : Memory.wf [] := ⟨List.Pairwise.nil, by simp⟩

/-- What a cell of an insertion is. -/
theorem Memory.mem_insert (m : Memory) (a : Nat) (v : Word) (c : Cell) :
    c ∈ m.insert a v ↔ c = (a, v) ∨ c ∈ m := by
  induction m with
  | nil => simp [Memory.insert]
  | cons d m ih =>
    simp only [Memory.insert]
    split
    · rw [List.mem_cons]
    · rw [List.mem_cons, ih, List.mem_cons]; tauto

theorem Memory.wf_erase {m : Memory} (h : m.wf) (a : Nat) : (m.erase a).wf :=
  ⟨h.1.filter _, fun c hc => h.2 c (List.mem_filter.mp hc).1⟩

theorem Memory.wf_insert {m : Memory} (h : m.wf) {a : Nat} {v : Word} (ha : a < Config.memWords) (hv : v ≠ 0)
    (hne : ∀ c ∈ m, c.1 ≠ a) : (m.insert a v).wf := by
  refine ⟨?_, fun c hc => ?_⟩
  · have hp := h.1
    clear h
    induction m with
    | nil => simp [Memory.insert]
    | cons d m ih =>
      have hd := hne d (by simp)
      rw [List.pairwise_cons] at hp
      unfold Memory.insert
      split
      · rename_i hlt
        refine List.pairwise_cons.mpr ⟨fun c hc => ?_, List.pairwise_cons.mpr hp⟩
        rcases List.mem_cons.mp hc with rfl | hc
        · exact hlt
        · exact lt_trans hlt (hp.1 c hc)
      · refine List.pairwise_cons.mpr ⟨fun c hc => ?_, ih (fun c hc => hne c (by simp [hc])) hp.2⟩
        rcases (Memory.mem_insert _ _ _ _).mp hc with rfl | hc
        · dsimp only; omega
        · exact hp.1 c hc
  · rcases (Memory.mem_insert _ _ _ _).mp hc with rfl | hc
    · exact ⟨ha, hv⟩
    · exact h.2 c hc

/-- A write inside the address space keeps the canonical form. -/
theorem Memory.wf_write {m : Memory} (h : m.wf) {a : Nat} (ha : a < Config.memWords) (v : Word) :
    (m.write a v).wf := by
  unfold Memory.write
  split
  · exact Memory.wf_erase h a
  · rename_i hv; exact Memory.wf_insert (Memory.wf_erase h a) ha hv (m.erase_ne a)

end Sys2Proof.Machine
end

