-- ==== Sys2Proof/Laws/State.lean ====
section
/-! SUPPORT. One lemma per field per update of the state, true by rfl, and the reads of a register and of a
memory word through every update, so that no proof unfolds a record update. -/

namespace Sys2Proof.Machine

@[simp] theorem State.writeReg_pc (s : State) (r : RegNo) (v : Word) : (s.writeReg r v).pc = s.pc := rfl
@[simp] theorem State.writeReg_cond (s : State) (r : RegNo) (v : Word) : (s.writeReg r v).cond = s.cond := rfl
@[simp] theorem State.writeReg_mem (s : State) (r : RegNo) (v : Word) : (s.writeReg r v).mem = s.mem := rfl
@[simp] theorem State.writeReg_run (s : State) (r : RegNo) (v : Word) : (s.writeReg r v).run = s.run := rfl
@[simp] theorem State.writeReg_trapPhase (s : State) (r : RegNo) (v : Word) : (s.writeReg r v).trapPhase = s.trapPhase := rfl
@[simp] theorem State.writeReg_kbd (s : State) (r : RegNo) (v : Word) : (s.writeReg r v).kbd = s.kbd := rfl
@[simp] theorem State.writeReg_conOut (s : State) (r : RegNo) (v : Word) : (s.writeReg r v).conOut = s.conOut := rfl
@[simp] theorem State.writeReg_peek (s : State) (r : RegNo) (v : Word) (x : Word) :
    (s.writeReg r v).peek x = s.peek x := rfl

@[simp] theorem State.setPc_regs (s : State) (t : Word) : (s.setPc t).regs = s.regs := rfl
@[simp] theorem State.setPc_pc (s : State) (t : Word) : (s.setPc t).pc = t := rfl
@[simp] theorem State.setPc_cond (s : State) (t : Word) : (s.setPc t).cond = s.cond := rfl
@[simp] theorem State.setPc_mem (s : State) (t : Word) : (s.setPc t).mem = s.mem := rfl
@[simp] theorem State.setPc_run (s : State) (t : Word) : (s.setPc t).run = s.run := rfl
@[simp] theorem State.setPc_trapPhase (s : State) (t : Word) : (s.setPc t).trapPhase = s.trapPhase := rfl
@[simp] theorem State.setPc_kbd (s : State) (t : Word) : (s.setPc t).kbd = s.kbd := rfl
@[simp] theorem State.setPc_conOut (s : State) (t : Word) : (s.setPc t).conOut = s.conOut := rfl
@[simp] theorem State.setPc_readReg (s : State) (t : Word) (x : RegNo) :
    (s.setPc t).readReg x = s.readReg x := rfl
@[simp] theorem State.setPc_peek (s : State) (t : Word) (x : Word) :
    (s.setPc t).peek x = s.peek x := rfl

@[simp] theorem State.setCond_regs (s : State) (c : BitVec 3) : (s.setCond c).regs = s.regs := rfl
@[simp] theorem State.setCond_pc (s : State) (c : BitVec 3) : (s.setCond c).pc = s.pc := rfl
@[simp] theorem State.setCond_cond (s : State) (c : BitVec 3) : (s.setCond c).cond = c := rfl
@[simp] theorem State.setCond_mem (s : State) (c : BitVec 3) : (s.setCond c).mem = s.mem := rfl
@[simp] theorem State.setCond_run (s : State) (c : BitVec 3) : (s.setCond c).run = s.run := rfl
@[simp] theorem State.setCond_trapPhase (s : State) (c : BitVec 3) : (s.setCond c).trapPhase = s.trapPhase := rfl
@[simp] theorem State.setCond_kbd (s : State) (c : BitVec 3) : (s.setCond c).kbd = s.kbd := rfl
@[simp] theorem State.setCond_conOut (s : State) (c : BitVec 3) : (s.setCond c).conOut = s.conOut := rfl
@[simp] theorem State.setCond_readReg (s : State) (c : BitVec 3) (x : RegNo) :
    (s.setCond c).readReg x = s.readReg x := rfl
@[simp] theorem State.setCond_peek (s : State) (c : BitVec 3) (x : Word) :
    (s.setCond c).peek x = s.peek x := rfl

@[simp] theorem State.setRun_regs (s : State) (r : Run) : (s.setRun r).regs = s.regs := rfl
@[simp] theorem State.setRun_pc (s : State) (r : Run) : (s.setRun r).pc = s.pc := rfl
@[simp] theorem State.setRun_cond (s : State) (r : Run) : (s.setRun r).cond = s.cond := rfl
@[simp] theorem State.setRun_mem (s : State) (r : Run) : (s.setRun r).mem = s.mem := rfl
@[simp] theorem State.setRun_run (s : State) (r : Run) : (s.setRun r).run = r := rfl
@[simp] theorem State.setRun_trapPhase (s : State) (r : Run) : (s.setRun r).trapPhase = s.trapPhase := rfl
@[simp] theorem State.setRun_kbd (s : State) (r : Run) : (s.setRun r).kbd = s.kbd := rfl
@[simp] theorem State.setRun_conOut (s : State) (r : Run) : (s.setRun r).conOut = s.conOut := rfl
@[simp] theorem State.setRun_readReg (s : State) (r : Run) (x : RegNo) :
    (s.setRun r).readReg x = s.readReg x := rfl
@[simp] theorem State.setRun_peek (s : State) (r : Run) (x : Word) :
    (s.setRun r).peek x = s.peek x := rfl

@[simp] theorem State.setTrapPhase_regs (s : State) (p : TrapPhase) : (s.setTrapPhase p).regs = s.regs := rfl
@[simp] theorem State.setTrapPhase_pc (s : State) (p : TrapPhase) : (s.setTrapPhase p).pc = s.pc := rfl
@[simp] theorem State.setTrapPhase_cond (s : State) (p : TrapPhase) : (s.setTrapPhase p).cond = s.cond := rfl
@[simp] theorem State.setTrapPhase_mem (s : State) (p : TrapPhase) : (s.setTrapPhase p).mem = s.mem := rfl
@[simp] theorem State.setTrapPhase_run (s : State) (p : TrapPhase) : (s.setTrapPhase p).run = s.run := rfl
@[simp] theorem State.setTrapPhase_trapPhase (s : State) (p : TrapPhase) : (s.setTrapPhase p).trapPhase = p := rfl
@[simp] theorem State.setTrapPhase_kbd (s : State) (p : TrapPhase) : (s.setTrapPhase p).kbd = s.kbd := rfl
@[simp] theorem State.setTrapPhase_conOut (s : State) (p : TrapPhase) : (s.setTrapPhase p).conOut = s.conOut := rfl
@[simp] theorem State.setTrapPhase_readReg (s : State) (p : TrapPhase) (x : RegNo) :
    (s.setTrapPhase p).readReg x = s.readReg x := rfl
@[simp] theorem State.setTrapPhase_peek (s : State) (p : TrapPhase) (x : Word) :
    (s.setTrapPhase p).peek x = s.peek x := rfl

@[simp] theorem State.setKbd_regs (s : State) (q : List Byte) : (s.setKbd q).regs = s.regs := rfl
@[simp] theorem State.setKbd_pc (s : State) (q : List Byte) : (s.setKbd q).pc = s.pc := rfl
@[simp] theorem State.setKbd_cond (s : State) (q : List Byte) : (s.setKbd q).cond = s.cond := rfl
@[simp] theorem State.setKbd_mem (s : State) (q : List Byte) : (s.setKbd q).mem = s.mem := rfl
@[simp] theorem State.setKbd_run (s : State) (q : List Byte) : (s.setKbd q).run = s.run := rfl
@[simp] theorem State.setKbd_trapPhase (s : State) (q : List Byte) : (s.setKbd q).trapPhase = s.trapPhase := rfl
@[simp] theorem State.setKbd_kbd (s : State) (q : List Byte) : (s.setKbd q).kbd = q := rfl
@[simp] theorem State.setKbd_conOut (s : State) (q : List Byte) : (s.setKbd q).conOut = s.conOut := rfl
@[simp] theorem State.setKbd_readReg (s : State) (q : List Byte) (x : RegNo) :
    (s.setKbd q).readReg x = s.readReg x := rfl
@[simp] theorem State.setKbd_peek (s : State) (q : List Byte) (x : Word) :
    (s.setKbd q).peek x = s.peek x := rfl

@[simp] theorem State.emit_regs (s : State) (bs : List Byte) : (s.emit bs).regs = s.regs := rfl
@[simp] theorem State.emit_pc (s : State) (bs : List Byte) : (s.emit bs).pc = s.pc := rfl
@[simp] theorem State.emit_cond (s : State) (bs : List Byte) : (s.emit bs).cond = s.cond := rfl
@[simp] theorem State.emit_mem (s : State) (bs : List Byte) : (s.emit bs).mem = s.mem := rfl
@[simp] theorem State.emit_run (s : State) (bs : List Byte) : (s.emit bs).run = s.run := rfl
@[simp] theorem State.emit_trapPhase (s : State) (bs : List Byte) : (s.emit bs).trapPhase = s.trapPhase := rfl
@[simp] theorem State.emit_kbd (s : State) (bs : List Byte) : (s.emit bs).kbd = s.kbd := rfl
@[simp] theorem State.emit_conOut (s : State) (bs : List Byte) : (s.emit bs).conOut = s.conOut ++ bs := rfl
@[simp] theorem State.emit_readReg (s : State) (bs : List Byte) (x : RegNo) :
    (s.emit bs).readReg x = s.readReg x := rfl
@[simp] theorem State.emit_peek (s : State) (bs : List Byte) (x : Word) :
    (s.emit bs).peek x = s.peek x := rfl

@[simp] theorem State.memWrite_regs (s : State) (a v : Word) : (s.memWrite a v).regs = s.regs := rfl
@[simp] theorem State.memWrite_pc (s : State) (a v : Word) : (s.memWrite a v).pc = s.pc := rfl
@[simp] theorem State.memWrite_cond (s : State) (a v : Word) : (s.memWrite a v).cond = s.cond := rfl
@[simp] theorem State.memWrite_mem (s : State) (a v : Word) : (s.memWrite a v).mem = s.mem.write a.toNat v := rfl
@[simp] theorem State.memWrite_run (s : State) (a v : Word) : (s.memWrite a v).run = s.run := rfl
@[simp] theorem State.memWrite_trapPhase (s : State) (a v : Word) : (s.memWrite a v).trapPhase = s.trapPhase := rfl
@[simp] theorem State.memWrite_kbd (s : State) (a v : Word) : (s.memWrite a v).kbd = s.kbd := rfl
@[simp] theorem State.memWrite_conOut (s : State) (a v : Word) : (s.memWrite a v).conOut = s.conOut := rfl
@[simp] theorem State.memWrite_readReg (s : State) (a v : Word) (x : RegNo) :
    (s.memWrite a v).readReg x = s.readReg x := rfl

/-- Reading a register after a register write (R20). -/
theorem State.writeReg_readReg (s : State) (r : RegNo) (v : Word) (x : RegNo) :
    (s.writeReg r v).readReg x = if r = x then v else s.readReg x := by
  simp only [State.readReg, State.writeReg, Vector.getElem_set, BitVec.toNat_inj]

@[simp] theorem State.writeReg_readReg_same (s : State) (r : RegNo) (v : Word) :
    (s.writeReg r v).readReg r = v := by simp [State.writeReg_readReg]

theorem State.writeReg_readReg_other (s : State) {r x : RegNo} (v : Word) (h : x ≠ r) :
    (s.writeReg r v).readReg x = s.readReg x := by simp [State.writeReg_readReg, Ne.symm h]

/-- Reading a memory word after a store (R52). -/
theorem State.memWrite_peek (s : State) (a v x : Word) :
    (s.memWrite a v).peek x = if a = x then v else s.peek x := by
  simp only [State.peek, State.memWrite, Memory.read_write, BitVec.toNat_inj]

@[simp] theorem State.memWrite_peek_same (s : State) (a v : Word) : (s.memWrite a v).peek a = v := by
  simp [State.memWrite_peek]

theorem State.memWrite_peek_other (s : State) {a x : Word} (v : Word) (h : x ≠ a) :
    (s.memWrite a v).peek x = s.peek x := by simp [State.memWrite_peek, Ne.symm h]

/-- A character as a word is the same number (R8). -/
@[simp] theorem zext16_toNat (b : Byte) : (zext16 b).toNat = b.toNat := by
  have := b.isLt
  simp only [zext16, BitVec.toNat_setWidth]
  omega

@[simp] theorem State.setcc_eq (s : State) (v : Word) : s.setcc v = s.setCond (condOf v) := rfl

@[simp] theorem State.writeDest_eq (s : State) (dr : RegNo) (v : Word) :
    s.writeDest dr v = (s.writeReg dr v).setCond (condOf v) := rfl

@[simp] theorem State.trapEntry_eq (s : State) : s.trapEntry = s.writeReg 7 s.pc := rfl

@[simp] theorem State.raiseFault_eq (s : State) (c : Cause) (ir : Word) :
    s.raiseFault c ir = s.setRun (.faulted c ir) := rfl

/-- A store through the state keeps the canonical form of memory. -/
theorem State.memWrite_wf {s : State} (h : s.mem.wf) (a v : Word) : (s.memWrite a v).mem.wf :=
  Memory.wf_write h a.isLt v

/-- The keyboard queue's two cases (R32). -/
theorem State.kbdTake_nil {s : State} (h : s.kbd = []) : s.kbdTake = none := by
  simp [State.kbdTake, h]

theorem State.kbdTake_cons {s : State} {b : Byte} {q : List Byte} (h : s.kbd = b :: q) :
    s.kbdTake = some (b, s.setKbd q) := by simp [State.kbdTake, h]

end Sys2Proof.Machine
end

