-- ==== Sys2Proof/Laws/Ops.lean ====
section
/-! SUPPORT. What a memory read can do: it changes nothing but the two keyboard words and the keyboard queue,
and it sees nothing but memory and that queue (spec/20_memory.md R53, R54). -/

namespace Sys2Proof.Machine

theorem State.poll_nil {s : State} (h : s.kbd = []) : s.poll = s.memWrite 0xFE00 0 := by
  simp only [State.poll, State.kbdTake_nil h]; rfl

theorem State.poll_cons {s : State} {b : Byte} {q : List Byte} (h : s.kbd = b :: q) :
    s.poll = ((s.setKbd q).memWrite 0xFE00 0x8000).memWrite 0xFE02 (zext16 b) := by
  simp only [State.poll, State.kbdTake_cons h]; rfl

theorem State.afterRead_plain (s : State) {a : Word} (h : a ≠ 0xFE00) : s.afterRead a = s := if_neg h

theorem State.afterRead_kbsr (s : State) : s.afterRead 0xFE00 = s.poll := if_pos rfl

theorem State.readValue_plain (s : State) {a : Word} (h : a ≠ 0xFE00) : s.readValue a = s.peek a := by
  rw [State.readValue, State.afterRead_plain s h]

theorem State.readValue_kbsr_nil {s : State} (h : s.kbd = []) : s.readValue 0xFE00 = 0 := by
  rw [State.readValue, State.afterRead_kbsr, State.poll_nil h, State.memWrite_peek_same]

theorem State.readValue_kbsr_cons {s : State} {b : Byte} {q : List Byte} (h : s.kbd = b :: q) :
    s.readValue 0xFE00 = 0x8000 := by
  rw [State.readValue, State.afterRead_kbsr, State.poll_cons h, State.memWrite_peek_other _ _ (by decide),
    State.memWrite_peek_same]

/-- Everything a read can do: nothing, or the poll that finds no byte, or the poll that takes one. -/
theorem State.afterRead_cases (s : State) (a : Word) :
    s.afterRead a = s ∧ a ≠ 0xFE00 ∨
    a = 0xFE00 ∧ s.kbd = [] ∧ s.afterRead a = s.memWrite 0xFE00 0 ∨
    ∃ b q, a = 0xFE00 ∧ s.kbd = b :: q ∧
      s.afterRead a = ((s.setKbd q).memWrite 0xFE00 0x8000).memWrite 0xFE02 (zext16 b) := by
  by_cases h : a = 0xFE00
  · subst h
    cases hk : s.kbd with
    | nil => exact .inr (.inl ⟨rfl, rfl, by rw [State.afterRead_kbsr, State.poll_nil hk]⟩)
    | cons b q => exact .inr (.inr ⟨b, q, rfl, rfl, by rw [State.afterRead_kbsr, State.poll_cons hk]⟩)
  · exact .inl ⟨State.afterRead_plain s h, h⟩

@[simp] theorem State.afterRead_regs (s : State) (a : Word) : (s.afterRead a).regs = s.regs := by
  rcases s.afterRead_cases a with ⟨h, -⟩ | ⟨-, -, h⟩ | ⟨b, q, -, -, h⟩ <;> rw [h] <;> rfl

@[simp] theorem State.afterRead_pc (s : State) (a : Word) : (s.afterRead a).pc = s.pc := by
  rcases s.afterRead_cases a with ⟨h, -⟩ | ⟨-, -, h⟩ | ⟨b, q, -, -, h⟩ <;> rw [h] <;> rfl

@[simp] theorem State.afterRead_cond (s : State) (a : Word) : (s.afterRead a).cond = s.cond := by
  rcases s.afterRead_cases a with ⟨h, -⟩ | ⟨-, -, h⟩ | ⟨b, q, -, -, h⟩ <;> rw [h] <;> rfl

@[simp] theorem State.afterRead_run (s : State) (a : Word) : (s.afterRead a).run = s.run := by
  rcases s.afterRead_cases a with ⟨h, -⟩ | ⟨-, -, h⟩ | ⟨b, q, -, -, h⟩ <;> rw [h] <;> rfl

@[simp] theorem State.afterRead_trapPhase (s : State) (a : Word) : (s.afterRead a).trapPhase = s.trapPhase := by
  rcases s.afterRead_cases a with ⟨h, -⟩ | ⟨-, -, h⟩ | ⟨b, q, -, -, h⟩ <;> rw [h] <;> rfl

@[simp] theorem State.afterRead_conOut (s : State) (a : Word) : (s.afterRead a).conOut = s.conOut := by
  rcases s.afterRead_cases a with ⟨h, -⟩ | ⟨-, -, h⟩ | ⟨b, q, -, -, h⟩ <;> rw [h] <;> rfl

@[simp] theorem State.afterRead_readReg (s : State) (a : Word) (x : RegNo) :
    (s.afterRead a).readReg x = s.readReg x := by simp [State.readReg]

theorem State.afterRead_wf {s : State} (h : s.mem.wf) (a : Word) : (s.afterRead a).mem.wf := by
  rcases s.afterRead_cases a with ⟨e, -⟩ | ⟨-, -, e⟩ | ⟨b, q, -, -, e⟩ <;> rw [e]
  · exact h
  · exact State.memWrite_wf h _ _
  · exact State.memWrite_wf (State.memWrite_wf (s := s.setKbd q) h _ _) _ _

/-- A read only ever takes bytes from the head of the keyboard queue. -/
theorem State.afterRead_kbd_suffix (s : State) (a : Word) : (s.afterRead a).kbd <:+ s.kbd := by
  rcases s.afterRead_cases a with ⟨e, -⟩ | ⟨-, -, e⟩ | ⟨b, q, -, hk, e⟩
  · simp [e]
  · simp [e]
  · simp [e, hk]

/-- A read changes no memory word but KBSR and KBDR. -/
theorem State.afterRead_peek (s : State) (a : Word) {x : Word} (h : x ≠ 0xFE00) (h' : x ≠ 0xFE02) :
    (s.afterRead a).peek x = s.peek x := by
  rcases s.afterRead_cases a with ⟨e, -⟩ | ⟨-, -, e⟩ | ⟨b, q, -, -, e⟩ <;> rw [e]
  · rw [State.memWrite_peek_other _ _ h]
  · rw [State.memWrite_peek_other _ _ h', State.memWrite_peek_other _ _ h, State.setKbd_peek]

/-! A read sees memory and the keyboard queue only, so it commutes with every update of the rest. -/

theorem State.afterRead_writeReg (s : State) (r : RegNo) (v : Word) (x : Word) :
    (s.writeReg r v).afterRead x = (s.afterRead x).writeReg r v := by
  by_cases h : x = 0xFE00
  · subst h
    simp only [State.afterRead_kbsr]
    cases hk : s.kbd with
    | nil => rw [State.poll_nil hk, State.poll_nil (s := s.writeReg r v) hk]; rfl
    | cons b q => rw [State.poll_cons hk, State.poll_cons (s := s.writeReg r v) hk]; rfl
  · rw [State.afterRead_plain _ h, State.afterRead_plain _ h]

theorem State.readValue_writeReg (s : State) (r : RegNo) (v : Word) (x : Word) :
    (s.writeReg r v).readValue x = s.readValue x := by
  rw [State.readValue, State.afterRead_writeReg, State.writeReg_peek, State.readValue]

theorem State.afterRead_emit (s : State) (bs : List Byte) (x : Word) :
    (s.emit bs).afterRead x = (s.afterRead x).emit bs := by
  by_cases h : x = 0xFE00
  · subst h
    simp only [State.afterRead_kbsr]
    cases hk : s.kbd with
    | nil => rw [State.poll_nil hk, State.poll_nil (s := s.emit bs) hk]; rfl
    | cons b q => rw [State.poll_cons hk, State.poll_cons (s := s.emit bs) hk]; rfl
  · rw [State.afterRead_plain _ h, State.afterRead_plain _ h]

theorem State.readValue_emit (s : State) (bs : List Byte) (x : Word) :
    (s.emit bs).readValue x = s.readValue x := by
  rw [State.readValue, State.afterRead_emit, State.emit_peek, State.readValue]

theorem State.afterRead_setPc (s : State) (t : Word) (x : Word) :
    (s.setPc t).afterRead x = (s.afterRead x).setPc t := by
  by_cases h : x = 0xFE00
  · subst h
    simp only [State.afterRead_kbsr]
    cases hk : s.kbd with
    | nil => rw [State.poll_nil hk, State.poll_nil (s := s.setPc t) hk]; rfl
    | cons b q => rw [State.poll_cons hk, State.poll_cons (s := s.setPc t) hk]; rfl
  · rw [State.afterRead_plain _ h, State.afterRead_plain _ h]

theorem State.readValue_setPc (s : State) (t : Word) (x : Word) :
    (s.setPc t).readValue x = s.readValue x := by
  rw [State.readValue, State.afterRead_setPc, State.setPc_peek, State.readValue]

theorem State.afterRead_setCond (s : State) (c : BitVec 3) (x : Word) :
    (s.setCond c).afterRead x = (s.afterRead x).setCond c := by
  by_cases h : x = 0xFE00
  · subst h
    simp only [State.afterRead_kbsr]
    cases hk : s.kbd with
    | nil => rw [State.poll_nil hk, State.poll_nil (s := s.setCond c) hk]; rfl
    | cons b q => rw [State.poll_cons hk, State.poll_cons (s := s.setCond c) hk]; rfl
  · rw [State.afterRead_plain _ h, State.afterRead_plain _ h]

theorem State.readValue_setCond (s : State) (c : BitVec 3) (x : Word) :
    (s.setCond c).readValue x = s.readValue x := by
  rw [State.readValue, State.afterRead_setCond, State.setCond_peek, State.readValue]

end Sys2Proof.Machine
end

