-- ==== Sys2Proof/Laws/PerInstr.lean ====
section
/-! SUPPORT. A family of one lemma per instruction: the top four bits of its word are the opcode of its row
(spec/30_encoding.md R81, R85). -/

namespace Sys2Proof

/-- The opcode of an instruction's row (R85). -/
def Instr.opcode : Instr → BitVec 4
  | .br .. | .nop .. => 0x0#4
  | .addReg .. | .addImm .. => 0x1#4
  | .ld .. => 0x2#4
  | .st .. => 0x3#4
  | .jsr .. | .jsrr .. => 0x4#4
  | .andReg .. | .andImm .. => 0x5#4
  | .ldr .. => 0x6#4
  | .str .. => 0x7#4
  | .rti .. => 0x8#4
  | .not .. => 0x9#4
  | .ldi .. => 0xA#4
  | .sti .. => 0xB#4
  | .jmp .. | .ret .. => 0xC#4
  | .res .. => 0xD#4
  | .lea .. => 0xE#4
  | .trap .. | .getc .. | .out .. | .puts .. | .inChar .. | .putsp .. | .halt .. => 0xF#4

/-- The word of `i` carries the opcode of its row. -/
def Laws.OpcodeField.Statement (i : Instr) : Prop := bits (encode i) 12 4 = i.opcode

theorem Laws.OpcodeField.br (nzp : BitVec 3) (off9 : BitVec 9) : Laws.OpcodeField.Statement (.br nzp off9) := by
  refine BitVec.eq_of_toNat_eq ?_
  rw [bits_toNat, encode_br_toNat]
  simp [Instr.opcode]
  omega

theorem Laws.OpcodeField.addReg (dr : RegNo) (sr1 : RegNo) (ign : BitVec 2) (sr2 : RegNo) : Laws.OpcodeField.Statement (.addReg dr sr1 ign sr2) := by
  refine BitVec.eq_of_toNat_eq ?_
  rw [bits_toNat, encode_addReg_toNat]
  simp [Instr.opcode]
  omega

theorem Laws.OpcodeField.addImm (dr : RegNo) (sr1 : RegNo) (imm5 : BitVec 5) : Laws.OpcodeField.Statement (.addImm dr sr1 imm5) := by
  refine BitVec.eq_of_toNat_eq ?_
  rw [bits_toNat, encode_addImm_toNat]
  simp [Instr.opcode]
  omega

theorem Laws.OpcodeField.ld (dr : RegNo) (off9 : BitVec 9) : Laws.OpcodeField.Statement (.ld dr off9) := by
  refine BitVec.eq_of_toNat_eq ?_
  rw [bits_toNat, encode_ld_toNat]
  simp [Instr.opcode]
  omega

theorem Laws.OpcodeField.st (sr : RegNo) (off9 : BitVec 9) : Laws.OpcodeField.Statement (.st sr off9) := by
  refine BitVec.eq_of_toNat_eq ?_
  rw [bits_toNat, encode_st_toNat]
  simp [Instr.opcode]
  omega

theorem Laws.OpcodeField.jsr (off11 : BitVec 11) : Laws.OpcodeField.Statement (.jsr off11) := by
  refine BitVec.eq_of_toNat_eq ?_
  rw [bits_toNat, encode_jsr_toNat]
  simp [Instr.opcode]
  omega

theorem Laws.OpcodeField.jsrr (ignHi : BitVec 2) (base : RegNo) (ignLo : BitVec 6) : Laws.OpcodeField.Statement (.jsrr ignHi base ignLo) := by
  refine BitVec.eq_of_toNat_eq ?_
  rw [bits_toNat, encode_jsrr_toNat]
  simp [Instr.opcode]
  omega

theorem Laws.OpcodeField.andReg (dr : RegNo) (sr1 : RegNo) (ign : BitVec 2) (sr2 : RegNo) : Laws.OpcodeField.Statement (.andReg dr sr1 ign sr2) := by
  refine BitVec.eq_of_toNat_eq ?_
  rw [bits_toNat, encode_andReg_toNat]
  simp [Instr.opcode]
  omega

theorem Laws.OpcodeField.andImm (dr : RegNo) (sr1 : RegNo) (imm5 : BitVec 5) : Laws.OpcodeField.Statement (.andImm dr sr1 imm5) := by
  refine BitVec.eq_of_toNat_eq ?_
  rw [bits_toNat, encode_andImm_toNat]
  simp [Instr.opcode]
  omega

theorem Laws.OpcodeField.ldr (dr : RegNo) (base : RegNo) (off6 : BitVec 6) : Laws.OpcodeField.Statement (.ldr dr base off6) := by
  refine BitVec.eq_of_toNat_eq ?_
  rw [bits_toNat, encode_ldr_toNat]
  simp [Instr.opcode]
  omega

theorem Laws.OpcodeField.str (sr : RegNo) (base : RegNo) (off6 : BitVec 6) : Laws.OpcodeField.Statement (.str sr base off6) := by
  refine BitVec.eq_of_toNat_eq ?_
  rw [bits_toNat, encode_str_toNat]
  simp [Instr.opcode]
  omega

theorem Laws.OpcodeField.rti (ign : BitVec 12) : Laws.OpcodeField.Statement (.rti ign) := by
  refine BitVec.eq_of_toNat_eq ?_
  rw [bits_toNat, encode_rti_toNat]
  simp [Instr.opcode]
  omega

theorem Laws.OpcodeField.not (dr : RegNo) (sr : RegNo) (ign : BitVec 6) : Laws.OpcodeField.Statement (.not dr sr ign) := by
  refine BitVec.eq_of_toNat_eq ?_
  rw [bits_toNat, encode_not_toNat]
  simp [Instr.opcode]
  omega

theorem Laws.OpcodeField.ldi (dr : RegNo) (off9 : BitVec 9) : Laws.OpcodeField.Statement (.ldi dr off9) := by
  refine BitVec.eq_of_toNat_eq ?_
  rw [bits_toNat, encode_ldi_toNat]
  simp [Instr.opcode]
  omega

theorem Laws.OpcodeField.sti (sr : RegNo) (off9 : BitVec 9) : Laws.OpcodeField.Statement (.sti sr off9) := by
  refine BitVec.eq_of_toNat_eq ?_
  rw [bits_toNat, encode_sti_toNat]
  simp [Instr.opcode]
  omega

theorem Laws.OpcodeField.jmp (ignHi : BitVec 3) (base : RegNo) (ignLo : BitVec 6) : Laws.OpcodeField.Statement (.jmp ignHi base ignLo) := by
  refine BitVec.eq_of_toNat_eq ?_
  rw [bits_toNat, encode_jmp_toNat]
  simp [Instr.opcode]
  omega

theorem Laws.OpcodeField.res (ign : BitVec 12) : Laws.OpcodeField.Statement (.res ign) := by
  refine BitVec.eq_of_toNat_eq ?_
  rw [bits_toNat, encode_res_toNat]
  simp [Instr.opcode]
  omega

theorem Laws.OpcodeField.lea (dr : RegNo) (off9 : BitVec 9) : Laws.OpcodeField.Statement (.lea dr off9) := by
  refine BitVec.eq_of_toNat_eq ?_
  rw [bits_toNat, encode_lea_toNat]
  simp [Instr.opcode]
  omega

theorem Laws.OpcodeField.trap (ign : BitVec 4) (vect : BitVec 8) : Laws.OpcodeField.Statement (.trap ign vect) := by
  refine BitVec.eq_of_toNat_eq ?_
  rw [bits_toNat, encode_trap_toNat]
  simp [Instr.opcode]
  omega

theorem Laws.OpcodeField.getc (ign : BitVec 4) : Laws.OpcodeField.Statement (.getc ign) := by
  refine BitVec.eq_of_toNat_eq ?_
  rw [bits_toNat, encode_getc_toNat]
  simp [Instr.opcode]
  omega

theorem Laws.OpcodeField.out (ign : BitVec 4) : Laws.OpcodeField.Statement (.out ign) := by
  refine BitVec.eq_of_toNat_eq ?_
  rw [bits_toNat, encode_out_toNat]
  simp [Instr.opcode]
  omega

theorem Laws.OpcodeField.puts (ign : BitVec 4) : Laws.OpcodeField.Statement (.puts ign) := by
  refine BitVec.eq_of_toNat_eq ?_
  rw [bits_toNat, encode_puts_toNat]
  simp [Instr.opcode]
  omega

theorem Laws.OpcodeField.inChar (ign : BitVec 4) : Laws.OpcodeField.Statement (.inChar ign) := by
  refine BitVec.eq_of_toNat_eq ?_
  rw [bits_toNat, encode_inChar_toNat]
  simp [Instr.opcode]
  omega

theorem Laws.OpcodeField.putsp (ign : BitVec 4) : Laws.OpcodeField.Statement (.putsp ign) := by
  refine BitVec.eq_of_toNat_eq ?_
  rw [bits_toNat, encode_putsp_toNat]
  simp [Instr.opcode]
  omega

theorem Laws.OpcodeField.halt (ign : BitVec 4) : Laws.OpcodeField.Statement (.halt ign) := by
  refine BitVec.eq_of_toNat_eq ?_
  rw [bits_toNat, encode_halt_toNat]
  simp [Instr.opcode]
  omega

theorem Laws.OpcodeField.ret (ignHi : BitVec 3) (ignLo : BitVec 6) : Laws.OpcodeField.Statement (.ret ignHi ignLo) := by
  refine BitVec.eq_of_toNat_eq ?_
  rw [bits_toNat, encode_ret_toNat]
  simp [Instr.opcode]
  omega

theorem Laws.OpcodeField.nop (off9 : BitVec 9) : Laws.OpcodeField.Statement (.nop off9) := by
  refine BitVec.eq_of_toNat_eq ?_
  rw [bits_toNat, encode_nop_toNat]
  simp [Instr.opcode]
  omega

end Sys2Proof
end

