-- ==== Sys2Proof/Laws/Strings.lean ====
section
/-! SUPPORT. What the string walk of PUTS and PUTSP can do: it changes nothing but the console, the two
keyboard words and the keyboard queue, and it always ends within its bound
(spec/43_trap_and_system.md R151, R155, R157). -/

namespace Sys2Proof.Machine

/-- One round of the walk. -/
theorem stringWalk_succ (f : Word → List Byte) (n : Nat) (a : Word) (s : State) :
    stringWalk f (n + 1) a s = if s.readValue a = 0 then some (s.afterRead a)
      else stringWalk f n (a + 1) ((s.afterRead a).emit (f (s.readValue a))) := rfl

/-- What a walk that ends leaves: all but the console, memory and the queue as before, the console grown, the
queue taken from at its head, memory canonical where it was, and only KBSR and KBDR changed. -/
structure WalkFrame (s t : State) : Prop where
  regs : t.regs = s.regs
  pc : t.pc = s.pc
  cond : t.cond = s.cond
  run : t.run = s.run
  phase : t.trapPhase = s.trapPhase
  conOut : s.conOut <+: t.conOut
  kbd : t.kbd <:+ s.kbd
  wf : s.mem.wf → t.mem.wf
  peek : ∀ x : Word, x ≠ 0xFE00 → x ≠ 0xFE02 → t.peek x = s.peek x

theorem stringWalk_frame (f : Word → List Byte) (n : Nat) :
    ∀ (a : Word) (s t : State), stringWalk f n a s = some t → WalkFrame s t := by
  induction n with
  | zero => intro a s t h; cases h
  | succ n ih =>
    intro a s t h
    rw [stringWalk_succ] at h
    split at h
    · cases h
      exact ⟨by simp, by simp, by simp, by simp, by simp, by simp, s.afterRead_kbd_suffix a,
        fun h => State.afterRead_wf h a, fun x h h' => s.afterRead_peek a h h'⟩
    · have w := ih _ _ _ h
      refine ⟨by simpa using w.regs, by simpa using w.pc, by simpa using w.cond, by simpa using w.run,
        by simpa using w.phase, ?_, ?_, fun h => w.wf (State.afterRead_wf h a), fun x h h' => ?_⟩
      · exact List.IsPrefix.trans (by simp) w.conOut
      · exact List.IsSuffix.trans (by simpa using w.kbd) (s.afterRead_kbd_suffix a)
      · rw [w.peek x h h', State.emit_peek, s.afterRead_peek a h h']

/-- The walk reaches a zero word: from any address KBSR is at most one round of the address space ahead, and
each time it is read it ends the walk or takes a byte. -/
theorem stringWalk_ends (f : Word → List Byte) (k : Nat) :
    ∀ (d : Nat) (a : Word) (s : State), s.kbd.length = k → d < Config.memWords →
      a + BitVec.ofNat 16 d = 0xFE00 → ∀ n, k * Config.memWords + d < n → ∃ t, stringWalk f n a s = some t := by
  induction k with
  | zero =>
    intro d
    induction d with
    | zero =>
      intro a s hk _ ha n hn
      obtain ⟨n, rfl⟩ : ∃ m, n = m + 1 := ⟨n - 1, by omega⟩
      have ha : a = 0xFE00 := by simpa using ha
      have hk : s.kbd = [] := List.length_eq_zero_iff.mp hk
      exact ⟨_, by rw [stringWalk_succ, ha, State.readValue_kbsr_nil hk, if_pos rfl]⟩
    | succ d ihd =>
      intro a s hk hd ha n hn
      obtain ⟨n, rfl⟩ : ∃ m, n = m + 1 := ⟨n - 1, by omega⟩
      rw [stringWalk_succ]
      split
      · exact ⟨_, rfl⟩
      · have hne : a ≠ 0xFE00 := by
          rintro rfl
          simp only [Config.memWords] at hd
          bv_omega
        refine ihd (a + 1) _ ?_ (by omega) (by rw [← ha]; bv_omega) n (by omega)
        rw [State.emit_kbd, s.afterRead_plain hne, hk]
  | succ k ihk =>
    intro d
    induction d with
    | zero =>
      intro a s hk _ ha n hn
      obtain ⟨n, rfl⟩ : ∃ m, n = m + 1 := ⟨n - 1, by omega⟩
      have ha : a = 0xFE00 := by simpa using ha
      rw [stringWalk_succ]
      split
      · exact ⟨_, rfl⟩
      · obtain ⟨b, q, hq⟩ : ∃ b q, s.kbd = b :: q := List.length_pos_iff_exists_cons.mp (by omega)
        refine ihk (Config.memWords - 1) (a + 1) _ ?_ (by decide) (by rw [ha]; decide) n ?_
        · rw [State.emit_kbd, ha, State.afterRead_kbsr, State.poll_cons hq]
          simp [hq] at hk
          simpa using hk
        · simp only [Config.memWords] at hn ⊢; omega
    | succ d ihd =>
      intro a s hk hd ha n hn
      obtain ⟨n, rfl⟩ : ∃ m, n = m + 1 := ⟨n - 1, by omega⟩
      rw [stringWalk_succ]
      split
      · exact ⟨_, rfl⟩
      · have hne : a ≠ 0xFE00 := by
          rintro rfl
          simp only [Config.memWords] at hd
          bv_omega
        refine ihd (a + 1) _ ?_ (by omega) (by rw [← ha]; bv_omega) n (by omega)
        rw [State.emit_kbd, s.afterRead_plain hne, hk]

/-- A walk with the bound of `walkBound` ends, from any address (log 6). -/
theorem stringWalk_bound (f : Word → List Byte) (a : Word) (s : State) :
    ∃ t, stringWalk f (walkBound s) a s = some t := by
  refine stringWalk_ends f s.kbd.length (0xFE00 - a).toNat a s rfl (0xFE00 - a).isLt ?_ _ ?_
  · rw [BitVec.ofNat_toNat, BitVec.setWidth_eq]; bv_omega
  · have := (0xFE00 - a).isLt
    simp only [walkBound, Config.memWords]; omega

/-- PUTS and PUTSP always answer a next state, framed as a walk is. -/
theorem serviceString_next (f : Word → List Byte) (s : State) :
    ∃ t, serviceString f s = .next t ∧ WalkFrame s t := by
  obtain ⟨t, h⟩ := stringWalk_bound f (s.readReg Config.argReg) s
  exact ⟨t, by rw [serviceString, h], stringWalk_frame f _ _ _ _ h⟩

end Sys2Proof.Machine
end

