-- ==== Sys2Proof/Laws/Step.lean ====
section
/-! SUPPORT. What one step can be, said once, and the lemmas of the fetch and of the console services. -/

namespace Sys2Proof.Machine

@[simp] theorem State.afterFetch_pc (s : State) : s.afterFetch.pc = s.pc + 1 := rfl

@[simp] theorem State.afterFetch_regs (s : State) : s.afterFetch.regs = s.regs := by simp [State.afterFetch]

@[simp] theorem State.afterFetch_readReg (s : State) (r : RegNo) : s.afterFetch.readReg r = s.readReg r := by
  simp [State.afterFetch]

@[simp] theorem State.afterFetch_cond (s : State) : s.afterFetch.cond = s.cond := by simp [State.afterFetch]

@[simp] theorem State.afterFetch_run (s : State) : s.afterFetch.run = s.run := by simp [State.afterFetch]

@[simp] theorem State.afterFetch_trapPhase (s : State) : s.afterFetch.trapPhase = s.trapPhase := by
  simp [State.afterFetch]

@[simp] theorem State.afterFetch_conOut (s : State) : s.afterFetch.conOut = s.conOut := by
  simp [State.afterFetch]

theorem State.afterFetch_wf {s : State} (h : s.mem.wf) : s.afterFetch.mem.wf := State.afterRead_wf h s.pc

theorem State.afterFetch_kbd_suffix (s : State) : s.afterFetch.kbd <:+ s.kbd := s.afterRead_kbd_suffix s.pc

theorem State.afterFetch_plain (s : State) (h : s.pc ≠ 0xFE00) : s.afterFetch = s.setPc (s.pc + 1) := by
  rw [State.afterFetch, State.afterRead_plain s h]

/-- Everything a step that answers a next state can be: a whole instruction from its fetch, or the end of a
held GETC or IN with the head byte of the queue. -/
theorem step_next {s t : State} (h : step s = .next t) :
    s.run = .running ∧
      (s.trapPhase = .none ∧ exec (decode s.fetchWord) s.afterFetch = .next t ∨
       ∃ b q, s.kbd = b :: q ∧
        (s.trapPhase = .waitGetc ∧ t = finishGetc b (s.setKbd q) ∨
         s.trapPhase = .waitIn ∧ t = finishIn b (s.setKbd q))) := by
  unfold step at h
  split at h
  · cases h
  · cases h
  · rename_i hr
    refine ⟨hr, ?_⟩
    split at h
    · rename_i hp; exact .inl ⟨hp, h⟩
    · rename_i hp
      cases hk : s.kbd with
      | nil => simp [resumeGetc, State.kbdTake_nil hk] at h
      | cons b q =>
        refine .inr ⟨b, q, rfl, .inl ⟨hp, ?_⟩⟩
        simp only [resumeGetc, State.kbdTake_cons hk, Host.Outcome.next.injEq] at h
        exact h.symm
    · rename_i hp
      cases hk : s.kbd with
      | nil => simp [resumeIn, State.kbdTake_nil hk] at h
      | cons b q =>
        refine .inr ⟨b, q, rfl, .inr ⟨hp, ?_⟩⟩
        simp only [resumeIn, State.kbdTake_cons hk, Host.Outcome.next.injEq] at h
        exact h.symm

/-- What `withFetchWord` is for: the very next step runs the word, from the address it was put at
(log 13, log 14). -/
theorem step_withFetchWord (s : State) (nbits w : Nat) :
    step (s.withFetchWord nbits w) =
      exec (decode (BitVec.ofNat 16 (w % 2 ^ nbits)))
        ((s.withFetchWord nbits w).setPc (s.fetchAddr + 1)) := by
  have hpc : (s.withFetchWord nbits w).pc = s.fetchAddr := rfl
  have hne : (s.withFetchWord nbits w).pc ≠ 0xFE00 := by
    rw [hpc]; unfold State.fetchAddr; split
    · decide
    · assumption
  have hw : (s.withFetchWord nbits w).fetchWord = BitVec.ofNat 16 (w % 2 ^ nbits) := by
    rw [State.fetchWord, State.readValue_plain _ hne, hpc]
    simp [State.withFetchWord]
  have hs : step (s.withFetchWord nbits w) =
      exec (decode (s.withFetchWord nbits w).fetchWord) (s.withFetchWord nbits w).afterFetch := rfl
  rw [hs, hw, State.afterFetch_plain _ hne, hpc]

/-- GETC with a byte on the queue, and without. -/
theorem serviceGetc_cons {s : State} {b : Byte} {q : List Byte} (h : s.kbd = b :: q) :
    serviceGetc s = finishGetc b (s.setKbd q) := by simp only [serviceGetc, State.kbdTake_cons h]

theorem serviceGetc_nil {s : State} (h : s.kbd = []) : serviceGetc s = s.setTrapPhase .waitGetc := by
  simp only [serviceGetc, State.kbdTake_nil h]

/-- IN with a byte on the queue, and without. -/
theorem serviceIn_cons {s : State} {b : Byte} {q : List Byte} (h : s.kbd = b :: q) :
    serviceIn s = finishIn b ((s.emit inPrompt).setKbd q) := by
  simp only [serviceIn, State.kbdTake_cons (s := s.emit inPrompt) h]

theorem serviceIn_nil {s : State} (h : s.kbd = []) : serviceIn s = (s.emit inPrompt).setTrapPhase .waitIn := by
  simp only [serviceIn, State.kbdTake_nil (s := s.emit inPrompt) h]

end Sys2Proof.Machine
end

