-- ==== Sys2Proof/Tests/Slice0.lean ====
section
/-! SUPPORT. The model's own tests: the well-formedness smoke, a word of every constructor written out from the
spec's encoding, one-step tests whose expected values are the rows of spec/95_test_vectors.md (named in each
comment), and witnesses that the hypotheses of the statements can be met. -/

open Sys2Proof Sys2Proof.Machine

namespace Sys2Proof.Tests

/-! ### WellFormed -/

theorem test_wf_refuses_br_mask_zero : (Instr.br 0 5).wellFormed = false := by decide
theorem test_wf_refuses_jmp_r7 : (Instr.jmp 0 7 0).wellFormed = false := by decide
theorem test_wf_refuses_trap_service_low : (Instr.trap 0 0x20).wellFormed = false := by decide
theorem test_wf_refuses_trap_service_high : (Instr.trap 3 0x25).wellFormed = false := by decide
theorem test_wf_accepts_trap_beside_services :
    (Instr.trap 0 0x1F).wellFormed = true ∧ (Instr.trap 0 0x26).wellFormed = true := by decide

/-! ### Decoding: words drawn bit by bit from R82 and from the table 2.3 of the vectors -/

theorem test_decode_br : decode 0b0000_111_111111111 = .br 7 0x1FF := by decide
theorem test_decode_nop : decode 0x0000 = .nop 0 ∧ decode 0b0000_000_000000010 = .nop 2 := by decide
theorem test_decode_add_reg :
    decode 0b0001_000_001_0_00_010 = .addReg 0 1 0 2 ∧ decode 0x105A = .addReg 0 1 3 2 := by decide
theorem test_decode_add_imm :
    decode 0b0001_001_001_1_11111 = .addImm 1 1 0x1F ∧ decode 0x1020 = .addImm 0 0 0 := by decide
theorem test_decode_ld : decode 0b0010_001_000000010 = .ld 1 2 := by decide
theorem test_decode_st : decode 0b0011_011_000000101 = .st 3 5 := by decide
theorem test_decode_jsr : decode 0b0100_1_00000000011 = .jsr 3 := by decide
theorem test_decode_jsrr : decode 0x4080 = .jsrr 0 2 0 ∧ decode 0b0100_0_11_010_111111 = .jsrr 3 2 0x3F := by decide
theorem test_decode_and_reg : decode 0b0101_000_001_0_00_010 = .andReg 0 1 0 2 := by decide
theorem test_decode_and_imm : decode 0b0101_010_011_1_01111 = .andImm 2 3 15 := by decide
theorem test_decode_ldr : decode 0b0110_001_010_000011 = .ldr 1 2 3 := by decide
theorem test_decode_str : decode 0b0111_001_010_111111 = .str 1 2 0x3F := by decide
theorem test_decode_rti : decode 0x8000 = .rti 0 ∧ decode 0x8FFF = .rti 0xFFF := by decide
theorem test_decode_not : decode 0b1001_000_001_111111 = .not 0 1 0x3F ∧ decode 0x9040 = .not 0 1 0 := by decide
theorem test_decode_ldi : decode 0b1010_000_000000010 = .ldi 0 2 := by decide
theorem test_decode_sti : decode 0b1011_011_000000010 = .sti 3 2 := by decide
theorem test_decode_jmp : decode 0b1100_000_010_000000 = .jmp 0 2 0 ∧ decode 0xCEBF = .jmp 7 2 0x3F := by decide
theorem test_decode_ret : decode 0b1100_000_111_000000 = .ret 0 0 := by decide
theorem test_decode_res : decode 0xD000 = .res 0 ∧ decode 0xDABC = .res 0xABC := by decide
theorem test_decode_lea : decode 0b1110_000_000000010 = .lea 0 2 := by decide
theorem test_decode_trap : decode 0b1111_0000_00100110 = .trap 0 0x26 ∧ decode 0xF01F = .trap 0 0x1F := by decide
theorem test_decode_getc : decode 0b1111_0000_00100000 = .getc 0 := by decide
theorem test_decode_out : decode 0b1111_0000_00100001 = .out 0 := by decide
theorem test_decode_puts : decode 0b1111_0000_00100010 = .puts 0 := by decide
theorem test_decode_in : decode 0b1111_0000_00100011 = .inChar 0 := by decide
theorem test_decode_putsp : decode 0b1111_0000_00100100 = .putsp 0 := by decide
theorem test_decode_halt : decode 0b1111_0000_00100101 = .halt 0 ∧ decode 0xFF25 = .halt 15 := by decide
theorem test_decode_table_word :
    decodeTableWord 16 0xF025 = some (.halt 0) ∧ decodeTableWord 32 0x10000 = none := by decide

/-! ### One step -/

/-- The start of a row of the vectors: reset but for registers, memory words, keyboard and flags, and the word
at `pc`. -/
def start (w pc : Word) (regs : List (RegNo × Word)) (mem : List (Word × Word)) (kbd : List Byte)
    (cond : BitVec 3) : State :=
  let s := regs.foldl (fun s c => s.writeReg c.1 c.2) State.reset
  let s := mem.foldl (fun s c => s.memWrite c.1 c.2) s
  (((s.memWrite pc w).setPc pc).setKbd kbd).setCond cond

/-- The same at 0x3000, the keyboard empty and Z. -/
def row (w : Word) (regs : List (RegNo × Word)) (mem : List (Word × Word)) : State :=
  start w 0x3000 regs mem [] 0b010

/-- What a view sees of the next state, if the step answers one. -/
def see {α : Type} (s : State) (view : State → α) : Option α :=
  match step s with
  | .next t => some (view t)
  | .fault _ => none
  | .refused _ => none

/-- A register, the flags and `pc`. -/
def regView (r : RegNo) (t : State) : Word × BitVec 3 × Word := (t.readReg r, t.cond, t.pc)

-- 2.4: signed overflow is not reported; the same register three times
theorem test_add_reg_overflow :
    see (row 0x1042 [(1, 0x7FFF), (2, 1)] []) (regView 0) = some (0x8000, 0b100, 0x3001) := by decide
theorem test_add_reg_same :
    see (row 0x1241 [(1, 0x1234)] []) (regView 1) = some (0x2468, 0b001, 0x3001) := by decide
-- 2.4 (E5 of Part 1); minus 16
theorem test_add_imm_minus_one :
    see (row 0x127F [] []) (regView 1) = some (0xFFFF, 0b100, 0x3001) := by decide
theorem test_add_imm_minus_sixteen :
    see (row 0x14B0 [(2, 0x10)] []) (regView 2) = some (0, 0b010, 0x3001) := by decide
-- 2.4
theorem test_and_reg :
    see (row 0x5042 [(1, 0x0F0F), (2, 0x00FF)] []) (regView 0) = some (0x000F, 0b001, 0x3001) := by decide
theorem test_and_imm_sign_extended :
    see (row 0x54F0 [(3, 0xABCD)] []) (regView 2) = some (0xABC0, 0b100, 0x3001) := by decide
theorem test_not_low_bits_ignored :
    see (row 0x9040 [(1, 0x00FF)] []) (regView 0) = some (0xFF00, 0b100, 0x3001) := by decide
theorem test_not_same_register :
    see (row 0x927F [(1, 0x8000)] []) (regView 1) = some (0x7FFF, 0b001, 0x3001) := by decide
-- 2.5: LD at the end of memory; LD of KBSR with a byte ready
theorem test_ld_wraps :
    see (start 0x2000 0xFFFF [] [(0, 0x7ABC)] [] 0b010) (regView 0) = some (0x7ABC, 0b001, 0) := by decide
theorem test_ld_polls :
    see (start 0x2000 0xFDFF [] [] [0x51] 0b010)
      (fun t => (t.readReg 0, t.cond, t.peek 0xFE00, t.peek 0xFE02, t.kbd)) =
    some (0x8000, 0b100, 0x8000, 0x0051, []) := by decide
-- 2.5: ST to the next word; ST to KBSR leaves the queue
theorem test_st_next_word :
    see (row 0x3600 [(3, 0xF025)] []) (fun t => (t.peek 0x3001, t.cond)) = some (0xF025, 0b010) := by decide
theorem test_st_kbsr_plain :
    see (start 0x3600 0xFDFF [(3, 0x1234)] [] [0x51] 0b010) (fun t => (t.peek 0xFE00, t.kbd)) =
    some (0x1234, [0x51]) := by decide
-- 2.5
theorem test_ldr_base_is_dest :
    see (row 0x6240 [(1, 0x4000)] [(0x4000, 0x5000)]) (regView 1) = some (0x5000, 0b001, 0x3001) := by decide
theorem test_ldr_negative_wraps :
    see (row 0x62BF [] [(0xFFFF, 0x0BBB)]) (regView 1) = some (0x0BBB, 0b001, 0x3001) := by decide
theorem test_str_negative :
    see (row 0x72BF [(1, 0xCAFE), (2, 0x4000)] []) (fun t => (t.peek 0x3FFF, t.cond)) =
    some (0xCAFE, 0b010) := by decide
theorem test_str_base_is_source :
    see (row 0x7240 [(1, 0x4000)] []) (fun t => t.peek 0x4000) = some 0x4000 := by decide
-- 2.5: E6 of Part 1; the pointer word itself is KBSR
theorem test_ldi_chain :
    see (row 0xA002 [] [(0x3003, 0x4000), (0x4000, 0x1234)]) (regView 0) =
    some (0x1234, 0b001, 0x3001) := by decide
theorem test_ldi_pointer_polls :
    see (start 0xA000 0xFDFF [] [(0x8000, 0x0055)] [0x6B] 0b010)
      (fun t => (t.readReg 0, t.peek 0xFE02, t.kbd)) = some (0x0055, 0x006B, []) := by decide
-- 2.5
theorem test_sti :
    see (row 0xB602 [(3, 0xAA)] [(0x3003, 0x5000)]) (fun t => (t.peek 0x5000, t.cond)) =
    some (0xAA, 0b010) := by decide
theorem test_sti_own_pointer :
    see (row 0xB602 [(3, 0xAA)] [(0x3003, 0x3003)]) (fun t => t.peek 0x3003) = some 0xAA := by decide
theorem test_lea_sets_flags :
    see (start 0xE000 0x7FFF [] [] [] 0b010) (regView 0) = some (0x8000, 0b100, 0x8000) := by decide
theorem test_lea_never_polls :
    see (start 0xE000 0xFDFF [] [] [0x6B] 0b010) (fun t => (t.readReg 0, t.kbd)) =
    some (0xFE00, [0x6B]) := by decide
-- 2.6
theorem test_br_taken : see (start 0x03FD 0x3005 [] [] [] 0b001) State.pc = some 0x3003 := by decide
theorem test_br_not_taken : see (start 0x03FD 0x3005 [] [] [] 0b010) State.pc = some 0x3006 := by decide
theorem test_nop : see (start 0x0002 0x3000 [] [] [] 0b100) State.pc = some 0x3001 := by decide
theorem test_jmp_ignored_bits :
    see (row 0xCEBF [(2, 0x4000)] []) (fun t => (t.pc, t.readReg 7)) = some (0x4000, 0) := by decide
theorem test_ret : see (start 0xC1C0 0x4000 [(7, 0x3001)] [] [] 0b010) State.pc = some 0x3001 := by decide
theorem test_jsr_backward : see (row 0x4C00 [] []) (regView 7) = some (0x3001, 0b010, 0x2C01) := by decide
theorem test_jsr_zero : see (row 0x4800 [] []) (regView 7) = some (0x3001, 0b010, 0x3001) := by decide
theorem test_jsrr :
    see (row 0x46BF [(2, 0x5000)] []) (regView 7) = some (0x3001, 0b010, 0x5000) := by decide
theorem test_jsrr_r7_falls_through :
    see (row 0x41C0 [(7, 0x5000)] []) (regView 7) = some (0x3001, 0b010, 0x3001) := by decide
-- 2.7
theorem test_getc_zero_extends :
    see (start 0xF020 0x3000 [] [] [0xFF] 0b010) (fun t => (t.readReg 0, t.readReg 7, t.cond, t.kbd)) =
    some (0x00FF, 0x3001, 0b001, []) := by decide
theorem test_getc_holds :
    see (row 0xF020 [] []) (fun t => (t.trapPhase, t.readReg 7, t.cond)) =
    some (.waitGetc, 0x3001, 0b010) := by decide
theorem test_out :
    see (row 0xF021 [(0, 0x1241)] []) (fun t => (t.conOut, t.readReg 7)) = some ([0x41], 0x3001) := by decide
theorem test_puts_low_bytes :
    see (row 0xF022 [(0, 0x4000)] [(0x4000, 0x48), (0x4001, 0x169), (0x4002, 0x100), (0x4003, 0x21)])
      (fun t => (t.conOut, t.readReg 0)) = some ([0x48, 0x69, 0x00, 0x21], 0x4000) := by decide
theorem test_puts_polls :
    see (row 0xF022 [(0, 0xFDFF)] [(0xFDFF, 0x41)] |>.setKbd [0x6B])
      (fun t => (t.conOut, t.peek 0xFE00, t.peek 0xFE02, t.kbd)) =
    some ([0x41, 0x00], 0x8000, 0x006B, []) := by decide
theorem test_in_echoes :
    see (start 0xF023 0x3000 [] [] [0x78] 0b010) (fun t => (t.conOut, t.readReg 0, t.cond)) =
    some (inPrompt ++ [0x78], 0x0078, 0b001) := by decide
theorem test_in_holds :
    see (row 0xF023 [] []) (fun t => (t.trapPhase, t.conOut)) = some (.waitIn, inPrompt) := by decide
theorem test_in_prompt_text : inPrompt = "Enter a character: ".toList.map (fun c => BitVec.ofNat 8 c.toNat) := by
  decide
theorem test_putsp_two_each :
    see (row 0xF024 [(0, 0x4000)] [(0x4000, 0x6548), (0x4001, 0x79)]) State.conOut =
    some [0x48, 0x65, 0x79] := by decide
theorem test_putsp_low_zero :
    see (row 0xF024 [(0, 0x4000)] [(0x4000, 0x4100)]) State.conOut = some [0x00, 0x41] := by decide
theorem test_halt :
    see (row 0xFF25 [] []) (fun t => (t.conOut, t.run, t.readReg 7)) =
    some ([0x48, 0x41, 0x4C, 0x54, 0x0A], .halted, 0x3001) := by decide
theorem test_trap_unknown :
    see (row 0xF026 [] []) (fun t => (t.run, t.readReg 7, t.pc)) =
    some (.faulted .unknownTrapVector 0xF026, 0x3001, 0x3001) := by decide
theorem test_rti :
    see (row 0x8FFF [] []) (fun t => (t.run, t.readReg 7, t.pc)) =
    some (.faulted .rtiUnsupported 0x8FFF, 0, 0x3001) := by decide
theorem test_res :
    see (row 0xDABC [] []) (fun t => (t.run, t.readReg 7)) = some (.faulted .reservedOpcode 0xDABC, 0) := by decide

/-! ### The host's side -/

-- E1 of Part 1 and its image bytes; a word past the end of memory is dropped (R214)
theorem test_image_halt_only :
    (State.launch [[0x30, 0x00, 0xF0, 0x25]]).mem = [(0x3000, 0xF025)] := by decide
theorem test_image_clamped :
    (State.launch [[0xFF, 0xFF, 0x12, 0x34, 0x56, 0x78]]).mem = [(0xFFFF, 0x1234)] := by decide
theorem test_reset_runs_nops : see State.reset State.pc = some 0x3001 := by decide
theorem test_with_fetch_word :
    (step (State.reset.withFetchWord 16 0x127F) = exec (.addImm 1 1 0x1F)
      ((State.reset.withFetchWord 16 0x127F).setPc 0x3001)) :=
  step_withFetchWord State.reset 16 0x127F

/-! ### Witnesses: the hypotheses of the statements can be met -/

/-- Between instructions, one byte ready, R0 at a string of one character. -/
def ready : State := start 0x3600 0x3000 [(0, 0x4000)] [(0x4000, 0x41)] [0x51] 0b001

/-- Held in GETC, after its TRAP at 0x2FFF. -/
def heldGetc (kbd : List Byte) : State :=
  ((State.reset.writeReg 7 0x3000).setTrapPhase .waitGetc).setKbd kbd

/-- Held in IN, its prompt written. -/
def heldIn (kbd : List Byte) : State :=
  (((State.reset.writeReg 7 0x3000).emit inPrompt).setTrapPhase .waitIn).setKbd kbd

theorem witness_SignExtensionCopiesTopBit :
    (1 ≤ 1 ∧ 1 ≤ 16 ∧ sext ((1 : Word).setWidth 1) = 0xFFFF) ∧
    (1 ≤ 16 ∧ 16 ≤ 16 ∧ sext ((0x8001 : Word).setWidth 16) = 0x8001) ∧
    sext ((0xFFEF : Word).setWidth 5) = 0x000F := by decide

theorem witness_ReadPollsOnlyAtKbsr :
    ((0xFDFF : Word) ≠ 0xFE00 ∧ (0xFE01 : Word) ≠ 0xFE00) ∧ State.reset.kbd = [] ∧ ready.kbd = [0x51] ∧
    ready.readValue 0xFE00 = 0x8000 ∧ State.reset.readValue 0xFE00 = 0 := by decide

theorem witness_KeyboardRegisterStores :
    (0xFE02 : Word) ≠ 0xFE00 ∧ State.reset.kbd = [] ∧ ready.kbd = [0x51] := by decide

theorem witness_CanonicalMemoriesAreEqual :
    Memory.wf [(5, 1), (7, 2)] ∧ Memory.wf ((Memory.write [] 7 2).write 5 1) ∧
    ∀ a, a < 65536 → Memory.read [(5, 1), (7, 2)] a = ((Memory.write [] 7 2).write 5 1).read a :=
  ⟨by decide, by decide, fun _ _ => rfl⟩

theorem witness_ImageLoadPlacesWords :
    imageCovers [0x30, 0x00, 0xF0, 0x25] 0x3000 ∧ ¬ imageCovers [0x30, 0x00, 0xF0, 0x25] 0x3001 ∧
    ¬ imageCovers [0x30, 0x00, 0xF0, 0x25] 0x2FFF ∧
    imageCovers [0xFF, 0xFF, 1, 2, 3, 4] 0xFFFF ∧ ¬ imageCovers [0xFF, 0xFF, 1, 2, 3, 4] 0 ∧
    ¬ imageCovers [0x30, 0x00, 0xF0] 0x3000 ∧ ¬ imageCovers [0x30] 0 := by
  unfold imageCovers; decide

theorem witness_LaunchState :
    let f : List Byte := [0x30, 0x00, 0xF0, 0x25]
    let g : List Byte := [0x40, 0x00, 0x12, 0x34]
    (∀ h ∈ [f, g], ¬ imageCovers h 0x5000) ∧ [f, g] = [] ++ f :: [g] ∧ imageCovers f 0x3000 ∧
    ∀ h ∈ [g], ¬ imageCovers h 0x3000 := by
  unfold imageCovers; decide

-- a load for each case of MemReadOf: LD's address, LDR's, LDI's pointer and its target
theorem witness_LdLoadsPcRelative :
    ready.pcRel9 0 ≠ 0xFE00 ∧ (ready.setPc 0xFE00).pcRel9 0 = 0xFE00 ∧
    ((ready.setKbd []).setPc 0xFE01).pcRel9 0x1FF = 0xFE00 := by decide
theorem witness_LdrLoadsBaseOffset :
    ready.baseOff 0 3 = 0x4003 ∧ (ready.writeReg 0 0xFE20).baseOff 0 0x20 = 0xFE00 ∧
    ((ready.setKbd []).writeReg 0 0xFDE1).baseOff 0 0x1F = 0xFE00 := by decide
theorem witness_LdiLoadsThroughPointer :
    ready.readValue (ready.pcRel9 0) = 0x3600 ∧
    (ready.memWrite 0x3000 0xFE00).readValue ((ready.memWrite 0x3000 0xFE00).pcRel9 0) = 0xFE00 ∧
    (ready.setPc 0xFE00).readValue ((ready.setPc 0xFE00).pcRel9 0) = 0x8000 := by decide
theorem witness_StiStoresThroughPointer :
    (0x3601 : Word) ≠ ready.readValue (ready.pcRel9 0) ∧
    ((ready.setPc 0xFE00).setKbd []).readValue (((ready.setPc 0xFE00).setKbd []).pcRel9 0) = 0 := by decide

theorem witness_BranchFollowsFlags :
    ((0b001 : BitVec 3) &&& ready.cond ≠ 0) ∧ ((0b110 : BitVec 3) &&& ready.cond = 0) ∧
    ((0b000 : BitVec 3) &&& ready.cond = 0) ∧ ((0b111 : BitVec 3) &&& State.reset.cond ≠ 0) ∧
    (ready.cond = 0b100 ∨ ready.cond = 0b010 ∨ ready.cond = 0b001) := by decide

theorem witness_TrapSelectsService :
    ((0x1F : BitVec 8).toNat < 0x20 ∨ 0x25 < (0x1F : BitVec 8).toNat) ∧
    ((0x26 : BitVec 8).toNat < 0x20 ∨ 0x25 < (0x26 : BitVec 8).toNat) ∧
    ((0x00 : BitVec 8).toNat < 0x20) ∧ 0x25 < (0xFF : BitVec 8).toNat := by decide

theorem witness_GetcTakesOneByte :
    ready.kbd = [0x51] ∧ State.reset.kbd = [] ∧
    ((heldGetc []).run = .running ∧ (heldGetc []).trapPhase = .waitGetc ∧ (heldGetc []).kbd = []) ∧
    (heldGetc [0]).run = .running ∧ (heldGetc [0]).trapPhase = .waitGetc ∧ (heldGetc [0]).kbd = [0] ∧
    see (heldGetc [0]) (regView 0) = some (0, 0b010, 0x3000) := by decide

theorem witness_InPromptsEchoesAndTakesOneByte :
    ((heldIn []).run = .running ∧ (heldIn []).trapPhase = .waitIn ∧ (heldIn []).kbd = []) ∧
    (heldIn [0x78]).run = .running ∧ (heldIn [0x78]).trapPhase = .waitIn ∧ (heldIn [0x78]).kbd = [0x78] ∧
    see (heldIn [0x78]) State.conOut = some (inPrompt ++ [0x78]) := by decide

theorem witness_PlainStringIsPrinted :
    StringAt ready (ready.readReg 0) [0x41] ∧ StringAt State.reset (State.reset.readReg 0) [] ∧
    StringAt ((State.reset.writeReg 0 0xFFFF).memWrite 0xFFFF 0x41) 0xFFFF [0x41] := by
  simp only [StringAt]; decide

theorem witness_StepRunsTheDecodedWord :
    (State.reset.run = .running ∧ State.reset.trapPhase = .none) ∧
    (State.reset.setRun .halted).run ≠ .running ∧
    ((State.reset.setPc 0xFE00).run = .running ∧ (State.reset.setPc 0xFE00).trapPhase = .none) := by decide

theorem witness_EncodedInstructionRuns :
    (Instr.st 3 0).wellFormed = true ∧ ready.run = .running ∧ ready.trapPhase = .none ∧ ready.pc ≠ 0xFE00 ∧
    ready.peek ready.pc = encode (.st 3 0) := by decide

theorem witness_CoreStepsExactlyWhenEnabled :
    (State.reset.trapPhase = .none) ∧ ((heldIn [1]).kbd ≠ []) ∧
    ((heldIn []).trapPhase ≠ .none ∧ (heldIn []).kbd = [] ∧ see (heldIn []) State.pc = none) := by decide

theorem witness_RunStateAfterEveryWord :
    ready.run = .running ∧ (0x8FFF : Word).toNat / 4096 = 8 ∧ (0xD000 : Word).toNat / 4096 = 13 ∧
    ((0xF026 : Word).toNat / 4096 = 15 ∧ ¬ hasService 0xF026 ∧ ¬ hasService 0xF01F) ∧
    (0xF125 : Word).toNat % 256 = 0x25 ∧
    ((0xF024 : Word).toNat / 4096 = 15 ∧ hasService 0xF024 ∧ hasService 0xF020 ∧
      (0xF024 : Word).toNat % 256 ≠ 0x25) ∧
    ((0x7FFF : Word).toNat / 4096 ≠ 8 ∧ (0x7FFF : Word).toNat / 4096 ≠ 13 ∧
      (0x7FFF : Word).toNat / 4096 ≠ 15) := by
  unfold hasService; decide

/-- `ready` with the word of an instruction at its `pc`. -/
def readyFor (i : Instr) : State := ready.memWrite 0x3000 (encode i)

/-- The hypotheses of StoreIsSeenByNextFetch, for one instruction and state. -/
def StoresNext (i : Instr) (sr : RegNo) (s : State) : Prop :=
  s.run = .running ∧ s.trapPhase = .none ∧ s.pc ≠ 0xFE00 ∧ s.pc + 1 ≠ 0xFE00 ∧ s.peek s.pc = encode i ∧
  i.storeReg = some sr ∧ storeAddr i (s.setPc (s.pc + 1)) = some (s.pc + 1)

theorem witness_StoreIsSeenByNextFetch :
    StoresNext (.st 3 0) 3 ready ∧ StoresNext (.str 2 1 0x20) 2 ((readyFor (.str 2 1 0x20)).writeReg 1 0x3021) ∧
    StoresNext (.sti 4 1) 4 ((readyFor (.sti 4 1)).memWrite 0x3002 0x3001) := by
  unfold StoresNext; decide

theorem witness_FetchFromKeyboardRegisters :
    ((State.reset.setPc 0xFE00).pc = 0xFE00 ∧ (State.reset.setPc 0xFE00).kbd = []) ∧
    ((ready.setPc 0xFE00).pc = 0xFE00 ∧ (ready.setPc 0xFE00).kbd = [0x51]) ∧
    ((ready.memWrite 0xFE02 0xFF).setPc 0xFE02).pc = 0xFE02 ∧
    (((ready.memWrite 0xFE02 0xFF).setPc 0xFE02).peek 0xFE02).toNat < 256 := by decide

theorem witness_FlagsAreSetByTheirWritersOnly :
    (Instr.lea 3 1).wellFormed = true ∧ (Instr.lea 3 1).destReg = some 3 ∧
    ((Instr.getc 0).readsKey = true ∧ ready.kbd ≠ [] ∧ State.reset.kbd = []) ∧
    (Instr.jsr 1).destReg = none ∧ (Instr.jsr 1).readsKey = false ∧
    (∃ t, exec (.lea 3 1) ready = .next t) ∧ (∃ t, exec (.getc 0) ready = .next t) ∧
    (∃ t, exec (.getc 0) State.reset = .next t) ∧ ∃ t, exec (.jsr 1) ready = .next t :=
  ⟨by decide, by decide, by decide, by decide, by decide, ⟨_, rfl⟩, ⟨_, rfl⟩, ⟨_, rfl⟩, ⟨_, rfl⟩⟩

theorem witness_FlagsAreReadByBranchesOnly :
    (∀ nzp off9, Instr.ld 1 2 ≠ .br nzp off9) ∧ ∃ t, exec (.ld 1 2) ready = .next t :=
  ⟨fun _ _ => by simp, ⟨_, rfl⟩⟩

theorem witness_RegistersChangeOnlyAsNamed :
    ∃ t, exec (.jsr 1) ready = .next t ∧ (Instr.jsr 1).wellFormed = true ∧ (Instr.jsr 1).links = true ∧
      t.readReg 7 ≠ ready.readReg 7 := ⟨_, rfl, by decide⟩

theorem witness_OnlyTransfersWritePc :
    ∃ t, exec (.out 0) ready = .next t ∧ (Instr.out 0).transfers = false := ⟨_, rfl, by decide⟩

theorem witness_MemoryChangesOnlyByStoresAndPolls :
    (∃ t, exec (.st 3 0) ready = .next t ∧ (Instr.st 3 0).wellFormed = true ∧
      t.peek 0x3000 ≠ ready.peek 0x3000) ∧
    ∃ t, exec (.ld 3 0) (ready.setPc 0xFE00) = .next t ∧ (Instr.ld 3 0).wellFormed = true ∧
      t.peek 0xFE00 ≠ (ready.setPc 0xFE00).peek 0xFE00 ∧ t.peek 0xFE02 ≠ (ready.setPc 0xFE00).peek 0xFE02 :=
  ⟨⟨_, rfl, by decide⟩, ⟨_, rfl, by decide⟩⟩

theorem witness_ConsoleOnlyGrows :
    (∃ t, exec (.getc 0) ready = .next t ∧ (Instr.getc 0).wellFormed = true ∧ (Instr.getc 0).prints = false) ∧
    ∃ t, step (heldIn [0x78]) = .next t := ⟨⟨_, rfl, by decide⟩, ⟨_, rfl⟩⟩

theorem witness_KeyboardQueueIsTakenFromItsHead :
    ∃ t, step (heldGetc [1, 2]) = .next t ∧ t.kbd = [2] := ⟨_, rfl, rfl⟩

theorem witness_IgnoredBitsPlayNoPart :
    ((0x907F : Word) &&& usedBits 0x907F = 0x9040 &&& usedBits 0x907F ∧ (0x907F : Word).toNat / 4096 ≠ 15) ∧
    ((0xF125 : Word) &&& usedBits 0xF125 = 0xFF25 &&& usedBits 0xF125 ∧ hasService 0xF125) := by
  unfold hasService; decide

theorem witness_EveryWordHasOneRow :
    (⟨"JSRR", 0xF800, 0x4000⟩ : Row) ∈ primaryRows ∧ (0x46BF : Word) &&& 0xF800 = 0x4000 := by decide

theorem witness_DecodeOfEncode :
    (Instr.br 7 0x1FF).wellFormed = true ∧ (Instr.jmp 7 6 0x3F).wellFormed = true ∧
    (Instr.trap 15 0xFF).wellFormed = true := by decide

/-- The invariant at a state held in IN. -/
theorem heldIn_inv : (heldIn [0x78]).Inv :=
  ⟨by decide, by decide, fun _ => by decide, fun _ => by decide, fun _ => by decide⟩

theorem witness_StepKeepsInvariant :
    (heldIn [0x78]).Inv ∧ ∃ t, step (heldIn [0x78]) = .next t := ⟨heldIn_inv, ⟨_, rfl⟩⟩

theorem witness_RunsKeepInvariantAndProgress :
    Reach [[0x30, 0x00, 0xF0, 0x25]] ((State.launch [[0x30, 0x00, 0xF0, 0x25]]).deliverKey 0x41) ∧
    ((State.launch [[0x30, 0x00, 0xF0, 0x25]]).deliverKey 0x41).run = .running ∧
    ((State.launch [[0x30, 0x00, 0xF0, 0x25]]).deliverKey 0x41).trapPhase = .none :=
  ⟨.key _ .launch, by decide, by decide⟩

-- an ADD with an empty queue, a GETC that takes the last byte, an LD whose poll does, a held IN
theorem witness_DeliveryCommutesWithStep :
    ((∃ t, step (row 0x1042 [] []) = .next t ∧ t.kbd = []) ∧ ¬ StepMisses (row 0x1042 [] [])) ∧
    ((∃ t, step (start 0xF020 0x3000 [] [] [7] 0b010) = .next t ∧ t.kbd = []) ∧
      ¬ StepMisses (start 0xF020 0x3000 [] [] [7] 0b010)) ∧
    ((∃ t, step (start 0x2000 0xFDFF [] [] [7] 0b010) = .next t ∧ t.kbd = []) ∧
      ¬ StepMisses (start 0x2000 0xFDFF [] [] [7] 0b010)) ∧
    (∃ t, step (heldIn [7]) = .next t ∧ t.kbd = []) ∧ ¬ StepMisses (heldIn [7]) := by
  have add : decode (row 0x1042 [] []).fetchWord = .addReg 0 1 0 2 := by decide
  have getc : decode (start 0xF020 0x3000 [] [] [7] 0b010).fetchWord = .getc 0 := by decide
  have ld : decode (start 0x2000 0xFDFF [] [] [7] 0b010).fetchWord = .ld 0 0 := by decide
  refine ⟨⟨⟨_, rfl, by decide⟩, ?_⟩, ⟨⟨_, rfl, by decide⟩, ?_⟩, ⟨⟨_, rfl, by decide⟩, ?_⟩,
    ⟨_, rfl, by decide⟩, ?_⟩
  · rw [StepMisses, add]; unfold InstrMisses PollMisses; decide
  · rw [StepMisses, getc]; unfold InstrMisses PollMisses; decide
  · rw [StepMisses, ld]; unfold InstrMisses PollMisses; decide
  · exact fun h => absurd h.1 (by decide)

end Sys2Proof.Tests
end

section
/-! PROOFS. The decoder: every word decodes to a well-formed instruction, and a well-formed instruction's word
decodes to it (spec/30_encoding.md R82, R85, R91). -/

namespace Sys2Proof

/-- A field's value, as a fact about the word's number. -/
theorem bits_eq_iff {w : Word} {lo len : Nat} {x : BitVec len} :
    bits w lo len = x ↔ w.toNat / 2 ^ lo % 2 ^ len = x.toNat := by
  rw [← BitVec.toNat_inj, bits_toNat]

/-- The opcode field of an encoded instruction is the opcode of its row (R85). -/
theorem bits_encode_opcode (i : Instr) : bits (encode i) 12 4 = i.opcode := by
  cases i
  exacts [Laws.OpcodeField.br .., Laws.OpcodeField.addReg .., Laws.OpcodeField.addImm ..,
    Laws.OpcodeField.ld .., Laws.OpcodeField.st .., Laws.OpcodeField.jsr .., Laws.OpcodeField.jsrr ..,
    Laws.OpcodeField.andReg .., Laws.OpcodeField.andImm .., Laws.OpcodeField.ldr ..,
    Laws.OpcodeField.str .., Laws.OpcodeField.rti .., Laws.OpcodeField.not .., Laws.OpcodeField.ldi ..,
    Laws.OpcodeField.sti .., Laws.OpcodeField.jmp .., Laws.OpcodeField.res .., Laws.OpcodeField.lea ..,
    Laws.OpcodeField.trap .., Laws.OpcodeField.getc .., Laws.OpcodeField.out .., Laws.OpcodeField.puts ..,
    Laws.OpcodeField.inChar .., Laws.OpcodeField.putsp .., Laws.OpcodeField.halt ..,
    Laws.OpcodeField.ret .., Laws.OpcodeField.nop ..]

/-- The service vectors are the six of R85. -/
theorem isServiceVector_iff (v : BitVec 8) : isServiceVector v = true ↔
    v = 0x20 ∨ v = 0x21 ∨ v = 0x22 ∨ v = 0x23 ∨ v = 0x24 ∨ v = 0x25 := by
  simp [isServiceVector, ← BitVec.toNat_inj]
  omega

theorem ne_of_not_service {vect v : BitVec 8} (h : isServiceVector vect = false)
    (hv : isServiceVector v = true) : vect ≠ v := by
  rintro rfl
  exact absurd hv (by simp [h])

/-- A TRAP word whose vector selects no service keeps its own row (R85, R161). -/
theorem decodeTrap_unknown {w : Word} (h : isServiceVector (bits w 0 8) = false) :
    decodeTrap w = .trap (bits w 8 4) (bits w 0 8) := by
  unfold decodeTrap
  iterate 6 rw [if_neg (ne_of_not_service h rfl)]

theorem decodeTrap_wellFormed (w : Word) : (decodeTrap w).wellFormed = true := by
  cases h : isServiceVector (bits w 0 8) with
  | false => simp [decodeTrap_unknown h, Instr.wellFormed, h]
  | true =>
    rcases (isServiceVector_iff _).mp h with v | v | v | v | v | v <;>
      simp [decodeTrap, v, Instr.wellFormed]

/-- No word decodes to a term whose word belongs to an alias row (log 7). -/
theorem decode_wellFormed (w : Word) : (decode w).wellFormed = true := by
  unfold decode
  split
  · unfold decodeBr; split <;> simp_all [Instr.wellFormed]
  · unfold decodeAdd; split <;> rfl
  · rfl
  · rfl
  · unfold decodeJsr; split <;> rfl
  · unfold decodeAnd; split <;> rfl
  iterate 6 rfl
  · unfold decodeJmp; split <;> simp_all [Instr.wellFormed]
  · rfl
  · rfl
  · exact decodeTrap_wellFormed w

/-- Decoding gives a well-formed instruction back: the opcode field chooses its row, a mode bit, a mask or a vector
its arm in the row, and every field is read where `encode` put it. -/
theorem decode_encode {i : Instr} (h : i.wellFormed = true) : decode (encode i) = i := by
  have op := bits_encode_opcode i
  unfold decode
  rw [op]
  cases i with
  | br nzp _ =>
    have mask : nzp.toNat ≠ 0 := by simpa [Instr.wellFormed, ← BitVec.toNat_inj] using h
    change decodeBr _ = _
    rw [decodeBr, if_neg (by simp [bits_eq_iff, encode_br_toNat]; omega)]
    simp [bits_eq_iff, encode_br_toNat]; omega
  | addReg =>
    change decodeAdd _ = _
    rw [decodeAdd, if_neg (by simp [bits_eq_iff, encode_addReg_toNat]; omega)]
    simp [bits_eq_iff, encode_addReg_toNat]; omega
  | addImm =>
    change decodeAdd _ = _
    rw [decodeAdd, if_pos (by simp [bits_eq_iff, encode_addImm_toNat]; omega)]
    simp [bits_eq_iff, encode_addImm_toNat]; omega
  | ld => simp [Instr.opcode, bits_eq_iff, encode_ld_toNat]; omega
  | st => simp [Instr.opcode, bits_eq_iff, encode_st_toNat]; omega
  | jsr =>
    change decodeJsr _ = _
    rw [decodeJsr, if_pos (by simp [bits_eq_iff, encode_jsr_toNat]; omega)]
    simp [bits_eq_iff, encode_jsr_toNat]; omega
  | jsrr =>
    change decodeJsr _ = _
    rw [decodeJsr, if_neg (by simp [bits_eq_iff, encode_jsrr_toNat]; omega)]
    simp [bits_eq_iff, encode_jsrr_toNat]; omega
  | andReg =>
    change decodeAnd _ = _
    rw [decodeAnd, if_neg (by simp [bits_eq_iff, encode_andReg_toNat]; omega)]
    simp [bits_eq_iff, encode_andReg_toNat]; omega
  | andImm =>
    change decodeAnd _ = _
    rw [decodeAnd, if_pos (by simp [bits_eq_iff, encode_andImm_toNat]; omega)]
    simp [bits_eq_iff, encode_andImm_toNat]; omega
  | ldr => simp [Instr.opcode, bits_eq_iff, encode_ldr_toNat]; omega
  | str => simp [Instr.opcode, bits_eq_iff, encode_str_toNat]; omega
  | rti => simp [Instr.opcode, bits_eq_iff, encode_rti_toNat]; omega
  | not => simp [Instr.opcode, bits_eq_iff, encode_not_toNat]; omega
  | ldi => simp [Instr.opcode, bits_eq_iff, encode_ldi_toNat]; omega
  | sti => simp [Instr.opcode, bits_eq_iff, encode_sti_toNat]; omega
  | jmp _ base _ =>
    have notRet : base.toNat ≠ 7 := by simpa [Instr.wellFormed, ← BitVec.toNat_inj] using h
    change decodeJmp _ = _
    rw [decodeJmp, if_neg (by simp [bits_eq_iff, encode_jmp_toNat]; omega)]
    simp [bits_eq_iff, encode_jmp_toNat]; omega
  | res => simp [Instr.opcode, bits_eq_iff, encode_res_toNat]; omega
  | lea => simp [Instr.opcode, bits_eq_iff, encode_lea_toNat]; omega
  | trap ign vect =>
    have v : bits (encode (.trap ign vect)) 0 8 = vect := by
      rw [bits_eq_iff, encode_trap_toNat]; omega
    change decodeTrap _ = _
    rw [decodeTrap_unknown (by simpa [v, Instr.wellFormed] using h)]
    simp [bits_eq_iff, encode_trap_toNat]; omega
  | getc => simp [Instr.opcode, decodeTrap, bits_eq_iff, encode_getc_toNat]; omega
  | out => simp [Instr.opcode, decodeTrap, bits_eq_iff, encode_out_toNat]; omega
  | puts => simp [Instr.opcode, decodeTrap, bits_eq_iff, encode_puts_toNat]; omega
  | inChar => simp [Instr.opcode, decodeTrap, bits_eq_iff, encode_inChar_toNat]; omega
  | putsp => simp [Instr.opcode, decodeTrap, bits_eq_iff, encode_putsp_toNat]; omega
  | halt => simp [Instr.opcode, decodeTrap, bits_eq_iff, encode_halt_toNat]; omega
  | ret =>
    change decodeJmp _ = _
    rw [decodeJmp, if_pos (by simp [bits_eq_iff, encode_ret_toNat]; omega)]
    simp [bits_eq_iff, encode_ret_toNat]; omega
  | nop =>
    change decodeBr _ = _
    rw [decodeBr, if_pos (by simp [bits_eq_iff, encode_nop_toNat]; omega)]
    simp [bits_eq_iff, encode_nop_toNat]; omega

end Sys2Proof
end

section
/-! PROOFS. Sign extension (spec/00_scope.md R7). -/

namespace Sys2Proof.Machine

/-- Bits below N are the field's, the others copies of its top bit (R7). -/
theorem sext_setWidth_getLsbD {n : Nat} (x : Word) (hn : 1 ≤ n) {i : Nat} (hi : i < 16) :
    (sext (x.setWidth n)).getLsbD i = x.getLsbD (if i < n then i else n - 1) := by
  have top : n - 1 < n := by omega
  rw [sext, BitVec.getLsbD_signExtend, BitVec.msb_eq_getLsbD_last]
  split <;> simp [*]

/-- The extension is the field's signed value modulo 2^16. -/
theorem sext_toNat {n : Nat} (x : BitVec n) : ((sext x).toNat : Int) = x.toInt % 2 ^ 16 := by
  rw [sext, BitVec.signExtend, BitVec.toNat_ofInt]
  exact Int.toNat_of_nonneg (Int.emod_nonneg _ (by decide))

/-- The signed value of the low N bits: the top one counts negative. -/
theorem toInt_setWidth_eq_sub {n : Nat} (x : Word) (hn : 1 ≤ n) : (x.setWidth n).toInt =
    (x.toNat % 2 ^ n : Nat) - 2 ^ n * (if x.getLsbD (n - 1) then 1 else 0) := by
  have top : n - 1 < n := by omega
  rw [BitVec.toInt_eq_msb_cond, BitVec.msb_eq_getLsbD_last, BitVec.getLsbD_setWidth, BitVec.toNat_setWidth]
  split <;> simp_all

end Sys2Proof.Machine
end

section
/-! PROOFS. Every well-formed instruction completes; what the step is in each trap phase; and a read as the spec's
relation (spec/00_scope.md R11, spec/10_state.md R31, spec/20_memory.md R53, R54). -/

namespace Sys2Proof.Machine

/-- A well-formed TRAP has no service: R7 written, then the fault (R150, R161). -/
theorem exec_trap_unknown {ign : BitVec 4} {vect : BitVec 8} (h : (Instr.trap ign vect).wellFormed = true)
    (s : State) : exec (.trap ign vect) s =
      .next (s.trapEntry.raiseFault .unknownTrapVector (encode (.trap ign vect))) := by
  have unknown : isServiceVector vect = false := by simpa [Instr.wellFormed] using h
  change execTrap ign vect s = _
  unfold execTrap
  iterate 6 rw [if_neg (ne_of_not_service unknown rfl)]

/-- Every well-formed instruction completes from every state; only the string walks need an argument (log 6). -/
theorem exec_next {i : Instr} (h : i.wellFormed = true) (s : State) : ∃ t, exec i s = .next t := by
  cases i with
  | trap => exact ⟨_, exec_trap_unknown h s⟩
  | puts => exact (serviceString_next putsBytes s.trapEntry).imp fun _ => And.left
  | putsp => exact (serviceString_next putspBytes s.trapEntry).imp fun _ => And.left
  | _ => exact ⟨_, rfl⟩

/-! ### The step, by trap phase -/

theorem step_between {s : State} (hr : s.run = .running) (hp : s.trapPhase = .none) :
    step s = exec (decode s.fetchWord) s.afterFetch := by
  simp only [step, hr, hp]

theorem step_waitGetc {s : State} (hr : s.run = .running) (hp : s.trapPhase = .waitGetc) {b : Byte}
    {q : List Byte} (hk : s.kbd = b :: q) : step s = .next (finishGetc b (s.setKbd q)) := by
  simp only [step, hr, hp, resumeGetc, State.kbdTake_cons hk]

theorem step_waitIn {s : State} (hr : s.run = .running) (hp : s.trapPhase = .waitIn) {b : Byte}
    {q : List Byte} (hk : s.kbd = b :: q) : step s = .next (finishIn b (s.setKbd q)) := by
  simp only [step, hr, hp, resumeIn, State.kbdTake_cons hk]

/-- A RUNNING core steps between instructions, and in a hold with a byte on the queue (R11, R31). -/
theorem step_enabled {s : State} (hr : s.run = .running) (hk : s.trapPhase = .none ∨ s.kbd ≠ []) :
    ∃ t, step s = .next t := by
  cases hp : s.trapPhase with
  | none =>
    rw [step_between hr hp]
    exact exec_next (decode_wellFormed _) _
  | waitGetc =>
    obtain ⟨b, q, hq⟩ := List.exists_cons_of_ne_nil (hk.resolve_left (by simp [hp]))
    exact ⟨_, step_waitGetc hr hp hq⟩
  | waitIn =>
    obtain ⟨b, q, hq⟩ := List.exists_cons_of_ne_nil (hk.resolve_left (by simp [hp]))
    exact ⟨_, step_waitIn hr hp hq⟩

/-! ### A read as the spec's relation -/

/-- What a `MemRead` returns and leaves is the spec's relation (R53, R54). -/
theorem memReadOf_afterRead (s : State) (a : Word) : MemReadOf s a (s.readValue a) (s.afterRead a) where
  plain ha := by simp [State.readValue_plain s ha, State.afterRead_plain s ha]
  notReady ha hk := by
    subst ha
    rw [State.readValue_kbsr_nil hk, State.afterRead_kbsr, State.poll_nil hk]
    exact ⟨rfl, State.memWrite_peek_same .., fun x hx => State.memWrite_peek_other _ _ hx, hk⟩
  ready ha b q hk := by
    subst ha
    rw [State.readValue_kbsr_cons hk, State.afterRead_kbsr, State.poll_cons hk]
    refine ⟨rfl, ?_, by simp, fun x hx hx' => ?_, rfl⟩
    · rw [State.memWrite_peek_other _ _ (by decide), State.memWrite_peek_same]
    · rw [State.memWrite_peek_other _ _ hx', State.memWrite_peek_other _ _ hx, State.setKbd_peek]

/-- The relation speaks of memory and the keyboard queue only. -/
theorem MemReadOf.setPc {s u : State} {a v : Word} (h : MemReadOf s a v u) (p : Word) :
    MemReadOf s a v (u.setPc p) := ⟨h.plain, h.notReady, h.ready⟩

end Sys2Proof.Machine
end

section
/-! PROOFS. The invariant: what keeps it, up to every state a run reaches (spec/00_scope.md R12, R13). -/

namespace Sys2Proof.Machine

/-- The flags a word gives are one-hot (R25). -/
theorem condOf_legal (v : Word) : condOf v = 0b100 ∨ condOf v = 0b010 ∨ condOf v = 0b001 := by
  unfold condOf
  split_ifs
  · exact .inl rfl
  · exact .inr (.inl rfl)
  · exact .inr (.inr rfl)

/-- What the invariant says of a state between instructions: every operation but a hold keeps it. -/
structure State.SoundBetween (s : State) : Prop where
  memWf : s.mem.wf
  condLegal : s.cond = 0b100 ∨ s.cond = 0b010 ∨ s.cond = 0b001
  between : s.trapPhase = .none

namespace State.SoundBetween

variable {s : State}

theorem inv (h : s.SoundBetween) : s.Inv where
  memWf := h.memWf
  condLegal := h.condLegal
  holdRunning hp := absurd h.between hp
  holdLink hp := absurd h.between hp
  holdPrompt hp := by simp [h.between] at hp

theorem of_inv (h : s.Inv) (hp : s.trapPhase = .none) : s.SoundBetween := ⟨h.memWf, h.condLegal, hp⟩

theorem writeReg (h : s.SoundBetween) (r : RegNo) (v : Word) : (s.writeReg r v).SoundBetween :=
  ⟨h.memWf, h.condLegal, h.between⟩

theorem setPc (h : s.SoundBetween) (p : Word) : (s.setPc p).SoundBetween :=
  ⟨h.memWf, h.condLegal, h.between⟩

theorem setRun (h : s.SoundBetween) (r : Run) : (s.setRun r).SoundBetween :=
  ⟨h.memWf, h.condLegal, h.between⟩

theorem emit (h : s.SoundBetween) (bs : List Byte) : (s.emit bs).SoundBetween :=
  ⟨h.memWf, h.condLegal, h.between⟩

theorem memWrite (h : s.SoundBetween) (a v : Word) : (s.memWrite a v).SoundBetween :=
  ⟨State.memWrite_wf h.memWf a v, h.condLegal, h.between⟩

theorem writeDest (h : s.SoundBetween) (dr : RegNo) (v : Word) : (s.writeDest dr v).SoundBetween :=
  ⟨h.memWf, condOf_legal v, h.between⟩

theorem afterRead (h : s.SoundBetween) (a : Word) : (s.afterRead a).SoundBetween :=
  ⟨State.afterRead_wf h.memWf a, (s.afterRead_cond a).symm ▸ h.condLegal, by simp [h.between]⟩

theorem loadInto (h : s.SoundBetween) (dr : RegNo) (a : Word) : (s.loadInto dr a).SoundBetween :=
  (h.afterRead a).writeDest dr _

theorem afterFetch (h : s.SoundBetween) : s.afterFetch.SoundBetween := (h.afterRead s.pc).setPc _

theorem branch (h : s.SoundBetween) (nzp : BitVec 3) (off9 : BitVec 9) : (s.branch nzp off9).SoundBetween := by
  unfold State.branch
  split
  · exact h.setPc _
  · exact h

theorem of_walk {t : State} (h : s.SoundBetween) (w : WalkFrame s t) : t.SoundBetween :=
  ⟨w.wf h.memWf, w.cond.symm ▸ h.condLegal, w.phase.trans h.between⟩

end State.SoundBetween

/-! ### The services -/

theorem finishGetc_soundBetween {s : State} (h : s.mem.wf) (b : Byte) : (finishGetc b s).SoundBetween :=
  ⟨h, condOf_legal _, rfl⟩

theorem finishIn_soundBetween {s : State} (h : s.mem.wf) (b : Byte) : (finishIn b s).SoundBetween :=
  ⟨h, condOf_legal _, rfl⟩

/-- GETC ends between instructions or holds with R7 its return address (R150, R153). -/
theorem serviceGetc_trapEntry_inv {s : State} (h : s.SoundBetween) (hr : s.run = .running) :
    (serviceGetc s.trapEntry).Inv := by
  cases hk : s.kbd with
  | nil =>
    rw [serviceGetc_nil (s := s.trapEntry) hk]
    exact ⟨h.memWf, h.condLegal, fun _ => hr, fun _ => s.writeReg_readReg_same 7 s.pc, nofun⟩
  | cons b q =>
    rw [serviceGetc_cons (s := s.trapEntry) hk]
    exact (finishGetc_soundBetween (s := s.trapEntry.setKbd q) h.memWf b).inv

/-- IN likewise, and its hold begins with the prompt just written (R156). -/
theorem serviceIn_trapEntry_inv {s : State} (h : s.SoundBetween) (hr : s.run = .running) :
    (serviceIn s.trapEntry).Inv := by
  cases hk : s.kbd with
  | nil =>
    rw [serviceIn_nil (s := s.trapEntry) hk]
    exact ⟨h.memWf, h.condLegal, fun _ => hr, fun _ => s.writeReg_readReg_same 7 s.pc,
      fun _ => List.suffix_append ..⟩
  | cons b q =>
    rw [serviceIn_cons (s := s.trapEntry) hk]
    exact (finishIn_soundBetween (s := (s.trapEntry.emit inPrompt).setKbd q) h.memWf b).inv

theorem serviceString_soundBetween {f : Word → List Byte} {s t : State} (h : s.SoundBetween)
    (ht : serviceString f s = .next t) : t.SoundBetween := by
  obtain ⟨u, hu, frame⟩ := serviceString_next f s
  obtain rfl : u = t := by simpa [hu] using ht
  exact h.of_walk frame

/-! ### Every step, every delivery, the launch -/

/-- Only GETC and IN can end in a hold; every other arm is made of operations that keep `SoundBetween`. -/
theorem exec_inv {i : Instr} (hw : i.wellFormed = true) {s t : State} (h : s.SoundBetween)
    (hr : s.run = .running) (ht : exec i s = .next t) : t.Inv := by
  cases i with
  | br nzp off9 => cases ht; exact (h.branch nzp off9).inv
  | nop off9 => cases ht; exact (h.branch 0 off9).inv
  | addReg | addImm | andReg | andImm | not | lea => cases ht; exact (h.writeDest _ _).inv
  | ld | ldr => cases ht; exact (h.loadInto _ _).inv
  | ldi => cases ht; exact ((h.afterRead _).loadInto _ _).inv
  | st | str => cases ht; exact (h.memWrite _ _).inv
  | sti => cases ht; exact ((h.afterRead _).memWrite _ _).inv
  | jmp | ret => cases ht; exact (h.setPc _).inv
  | jsr | jsrr => cases ht; exact ((h.writeReg _ _).setPc _).inv
  | rti | res => cases ht; exact (h.setRun _).inv
  | trap =>
    rw [exec_trap_unknown hw] at ht
    cases ht; exact ((h.writeReg _ _).setRun _).inv
  | getc => cases ht; exact serviceGetc_trapEntry_inv h hr
  | inChar => cases ht; exact serviceIn_trapEntry_inv h hr
  | out => cases ht; exact ((h.writeReg _ _).emit _).inv
  | puts | putsp => exact (serviceString_soundBetween (h.writeReg _ _) ht).inv
  | halt => cases ht; exact (((h.writeReg _ _).emit _).setRun _).inv

theorem step_inv {s t : State} (h : s.Inv) (ht : step s = .next t) : t.Inv := by
  obtain ⟨hr, ⟨hp, hx⟩ | ⟨b, q, -, ⟨-, rfl⟩ | ⟨-, rfl⟩⟩⟩ := step_next ht
  · exact exec_inv (decode_wellFormed _) (State.SoundBetween.of_inv h hp).afterFetch (by simpa using hr) hx
  · exact (finishGetc_soundBetween (s := s.setKbd q) h.memWf b).inv
  · exact (finishIn_soundBetween (s := s.setKbd q) h.memWf b).inv

theorem State.Inv.deliverKey {s : State} (h : s.Inv) (b : Byte) : (s.deliverKey b).Inv :=
  ⟨h.memWf, h.condLegal, h.holdRunning, h.holdLink, h.holdPrompt⟩

theorem loadWords_wf {m : Memory} (h : m.wf) (a : Nat) (bytes : List Byte) : (loadWords m a bytes).wf := by
  fun_induction loadWords m a bytes with
  | case1 m a hi lo rest ha ih => exact ih (Memory.wf_write h ha _)
  | case2 => exact h
  | case3 => exact h

theorem loadImage_wf {m : Memory} (h : m.wf) (file : List Byte) : (loadImage m file).wf := by
  unfold loadImage
  split
  · exact loadWords_wf h _ _
  · exact h

theorem launch_soundBetween (images : List (List Byte)) : (State.launch images).SoundBetween where
  memWf := List.foldlRecOn images loadImage Memory.wf_nil fun _ h file _ => loadImage_wf h file
  condLegal := .inr (.inl rfl)
  between := rfl

/-- Every state a run reaches meets the invariant: it holds at launch, and both moves keep it (R13). -/
theorem Reach.inv {images : List (List Byte)} {s : State} (h : Reach images s) : s.Inv := by
  induction h with
  | launch => exact (launch_soundBetween images).inv
  | core _ ht ih => exact step_inv ih ht
  | key b _ ih => exact ih.deliverKey b

end Sys2Proof.Machine
end

section
/-! PROOFS. A key delivered before or after: every operation that does not find the keyboard queue empty commutes
with a delivery (spec/10_state.md R32, log 5). -/

namespace Sys2Proof.Machine

/-- A delivery leaves the head of a queue that has one (R32). -/
theorem deliverKey_kbd_cons {s : State} {c : Byte} {q : List Byte} (hk : s.kbd = c :: q) (b : Byte) :
    (s.deliverKey b).kbd = c :: (q ++ [b]) := congrArg (· ++ [b]) hk

theorem deliverKey_pcRel9 (s : State) (b : Byte) (off9 : BitVec 9) :
    (s.deliverKey b).pcRel9 off9 = s.pcRel9 off9 := rfl

/-- A read that does not find the queue empty takes the same byte, or none, before or after the delivery. -/
theorem afterRead_deliverKey {s : State} {a : Word} (h : ¬ PollMisses s a) (b : Byte) :
    (s.deliverKey b).afterRead a = (s.afterRead a).deliverKey b := by
  obtain ⟨e, ha⟩ | ⟨ha, hk, -⟩ | ⟨c, q, rfl, hk, e⟩ := s.afterRead_cases a
  · rw [e, State.afterRead_plain _ ha]
  · exact absurd ⟨ha, hk⟩ h
  · rw [e, State.afterRead_kbsr, State.poll_cons (deliverKey_kbd_cons hk b)]
    rfl

theorem readValue_deliverKey {s : State} {a : Word} (h : ¬ PollMisses s a) (b : Byte) :
    (s.deliverKey b).readValue a = s.readValue a := by
  rw [State.readValue, afterRead_deliverKey h, State.deliverKey, State.setKbd_peek, State.readValue]

theorem loadInto_deliverKey {s : State} {a : Word} (h : ¬ PollMisses s a) (dr : RegNo) (b : Byte) :
    (s.deliverKey b).loadInto dr a = (s.loadInto dr a).deliverKey b := by
  rw [State.loadInto, afterRead_deliverKey h, readValue_deliverKey h]
  rfl

theorem branch_deliverKey (s : State) (nzp : BitVec 3) (off9 : BitVec 9) (b : Byte) :
    (s.deliverKey b).branch nzp off9 = (s.branch nzp off9).deliverKey b := by
  rw [State.branch, State.branch, apply_ite (State.deliverKey · b)]
  rfl

/-- An update that no read sees hides no look at the keyboard. -/
theorem LoopMisses.of_update {f : State → State} (hk : ∀ s, (f s).kbd = s.kbd)
    (hv : ∀ s a, (f s).readValue a = s.readValue a) (ha : ∀ s a, (f s).afterRead a = f (s.afterRead a))
    {s : State} {a : Word} (h : LoopMisses (f s) a) : LoopMisses s a := by
  generalize hu : f s = u at h
  induction h generalizing s with
  | here miss =>
    subst hu
    exact .here ⟨miss.1, (hk s).symm.trans miss.2⟩
  | later hne _ ih =>
    subst hu
    exact .later (hv s _ ▸ hne) (ih (ha s _).symm)

/-- A walk that never finds the queue empty goes the same way with a byte more at the queue's end. -/
theorem stringWalk_deliverKey (f : Word → List Byte) (b : Byte) (n : Nat) :
    ∀ {a : Word} {s t : State}, ¬ LoopMisses s a → stringWalk f n a s = some t →
      stringWalk f n a (s.deliverKey b) = some (t.deliverKey b) := by
  induction n with
  | zero => intro a s t _ h; cases h
  | succ n ih =>
    intro a s t miss h
    have poll : ¬ PollMisses s a := fun p => miss (.here p)
    rw [stringWalk_succ] at h ⊢
    rw [readValue_deliverKey poll, afterRead_deliverKey poll]
    split at h
    case isTrue h0 =>
      cases h
      rw [if_pos h0]
    case isFalse h0 =>
      rw [if_neg h0]
      refine ih (fun later => miss (.later h0 ?_)) h
      exact later.of_update (f := (State.emit · _)) (fun _ => rfl) (fun s a => s.readValue_emit _ a)
        (fun s a => s.afterRead_emit _ a)

/-- A walk that has ended within a bound ends alike within a larger one; a delivery enlarges `walkBound`. -/
theorem stringWalk_mono (f : Word → List Byte) {n m : Nat} (hnm : n ≤ m) :
    ∀ {a : Word} {s t : State}, stringWalk f n a s = some t → stringWalk f m a s = some t := by
  induction n generalizing m with
  | zero => intro a s t h; cases h
  | succ n ih =>
    obtain ⟨m, rfl⟩ : ∃ k, m = k + 1 := ⟨m - 1, by omega⟩
    intro a s t h
    rw [stringWalk_succ] at h ⊢
    split at h
    case isTrue h0 => rwa [if_pos h0]
    case isFalse h0 =>
      rw [if_neg h0]
      exact ih (by omega) h

theorem serviceString_eq_next {f : Word → List Byte} {s t : State} :
    serviceString f s = .next t ↔ stringWalk f (walkBound s) (s.readReg Config.argReg) s = some t := by
  unfold serviceString
  split <;> simp [*]

theorem serviceString_deliverKey {f : Word → List Byte} {s t : State} (miss : ¬ LoopMisses s (s.readReg 0))
    (b : Byte) (h : serviceString f s = .next t) : serviceString f (s.deliverKey b) = .next (t.deliverKey b) := by
  rw [serviceString_eq_next] at h ⊢
  refine stringWalk_mono f ?_ (stringWalk_deliverKey f b _ miss h)
  exact Nat.mul_le_mul_right _ (by simp [State.deliverKey])

theorem serviceGetc_deliverKey {s : State} (h : s.kbd ≠ []) (b : Byte) :
    serviceGetc (s.deliverKey b) = (serviceGetc s).deliverKey b := by
  obtain ⟨c, q, hk⟩ := List.exists_cons_of_ne_nil h
  rw [serviceGetc_cons hk, serviceGetc_cons (deliverKey_kbd_cons hk b)]
  rfl

theorem serviceIn_deliverKey {s : State} (h : s.kbd ≠ []) (b : Byte) :
    serviceIn (s.deliverKey b) = (serviceIn s).deliverKey b := by
  obtain ⟨c, q, hk⟩ := List.exists_cons_of_ne_nil h
  rw [serviceIn_cons hk, serviceIn_cons (deliverKey_kbd_cons hk b)]
  rfl

/-- PUTS and PUTSP: the link write of their TRAP hides no look at the keyboard and moves no string. -/
theorem execString_deliverKey {f : Word → List Byte} {s t : State} (miss : ¬ LoopMisses s (s.readReg 0))
    (b : Byte) (h : serviceString f s.trapEntry = .next t) :
    serviceString f (s.deliverKey b).trapEntry = .next (t.deliverKey b) := by
  refine serviceString_deliverKey (s := s.trapEntry) (fun look => miss ?_) b h
  rw [s.trapEntry_eq, State.writeReg_readReg_other s s.pc (by decide)] at look
  exact look.of_update (f := (State.writeReg · 7 s.pc)) (fun _ => rfl) (fun s a => s.readValue_writeReg _ _ a)
    (fun s a => s.afterRead_writeReg _ _ a)

/-- An arm that does not look at the queue commutes by its definition; the others by their reads or their wait. -/
theorem exec_deliverKey {i : Instr} (hw : i.wellFormed = true) {s t : State} (miss : ¬ InstrMisses i s)
    (b : Byte) (ht : exec i s = .next t) : exec i (s.deliverKey b) = .next (t.deliverKey b) := by
  cases i with
  | br nzp off9 => cases ht; exact congrArg _ (branch_deliverKey s nzp off9 b)
  | nop off9 => cases ht; exact congrArg _ (branch_deliverKey s 0 off9 b)
  | ld | ldr => cases ht; exact congrArg _ (loadInto_deliverKey miss _ b)
  | ldi dr off9 =>
    obtain ⟨pointer, target⟩ := not_or.mp miss
    cases ht
    simp only [exec, execLdi, deliverKey_pcRel9, readValue_deliverKey pointer,
      afterRead_deliverKey pointer, loadInto_deliverKey target]
  | sti sr off9 =>
    cases ht
    simp only [exec, execSti, deliverKey_pcRel9, readValue_deliverKey miss, afterRead_deliverKey miss]
    rfl
  | trap =>
    rw [exec_trap_unknown hw] at ht ⊢
    cases ht; rfl
  | getc => cases ht; exact congrArg _ (serviceGetc_deliverKey (s := s.trapEntry) miss b)
  | inChar => cases ht; exact congrArg _ (serviceIn_deliverKey (s := s.trapEntry) miss b)
  | puts | putsp => exact execString_deliverKey miss b ht
  | _ => cases ht; rfl

end Sys2Proof.Machine
end

section
/-! PROOFS. The statements of spec/00_scope.md. -/

open Sys2Proof Sys2Proof.Machine

/-- Settles O1, bit by bit and through the field's signed value. -/
theorem signExtensionCopiesTopBit : Obligations.SignExtensionCopiesTopBit := by
  intro n x hn _
  refine ⟨fun i hi => sext_setWidth_getLsbD x hn hi, ?_, ?_⟩
  · rw [sext_toNat, toInt_setWidth_eq_sub x hn]
  · rw [BitVec.setWidth_eq]
    exact BitVec.signExtend_eq _

/-- Settles O38: `step_next` one way, `step_enabled` the other. -/
theorem coreStepsExactlyWhenEnabled : Obligations.CoreStepsExactlyWhenEnabled := by
  intro s
  constructor
  · rintro ⟨t, h⟩
    obtain ⟨hr, ⟨hp, -⟩ | ⟨b, q, hk, -⟩⟩ := step_next h
    · exact ⟨hr, .inl hp⟩
    · exact ⟨hr, .inr (by simp [hk])⟩
  · rintro ⟨hr, hk⟩
    exact step_enabled hr hk

/-- Settles O56, by induction over the run (`Reach.inv`) and `step_enabled`. -/
theorem runsKeepInvariantAndProgress : Obligations.RunsKeepInvariantAndProgress := by
  intro images s h
  refine ⟨h.inv, fun hr hk => ?_⟩
  obtain ⟨t, ht⟩ := step_enabled hr hk
  exact ⟨t, ht, step_inv h.inv ht⟩

/-- Settles O57: the fetch commutes with the delivery, then the instruction does, or the end of the held service. -/
theorem deliveryCommutesWithStep : Obligations.DeliveryCommutesWithStep := by
  intro s t b h miss
  obtain ⟨hr, ⟨hp, hx⟩ | ⟨c, q, hk, held⟩⟩ := step_next h
  · obtain ⟨poll, look⟩ := not_or.mp fun m => miss ⟨hp, m⟩
    have fetched : (s.deliverKey b).fetchWord = s.fetchWord := readValue_deliverKey poll b
    have start : (s.deliverKey b).afterFetch = s.afterFetch.deliverKey b :=
      congrArg (State.setPc · (s.pc + 1)) (afterRead_deliverKey poll b)
    rw [step_between (s := s.deliverKey b) hr hp, fetched, start]
    exact exec_deliverKey (decode_wellFormed _) look b hx
  · have hk' := deliverKey_kbd_cons hk b
    obtain ⟨hp, rfl⟩ | ⟨hp, rfl⟩ := held
    · exact step_waitGetc (s := s.deliverKey b) hr hp hk'
    · exact step_waitIn (s := s.deliverKey b) hr hp hk'

/-- Settles O36: the fetched word and state are the model's own. -/
theorem stepRunsTheDecodedWord : Obligations.StepRunsTheDecodedWord := by
  intro s
  refine ⟨fun hr hp => ⟨s.fetchWord, s.afterFetch, (memReadOf_afterRead s s.pc).setPc _, ?_⟩,
    fun hr t h => hr (step_next h).1⟩
  simp [step_between hr hp, BitVec.toNat_add]

/-- Settles O37, from `decode_encode` and a fetch that does not poll. -/
theorem encodedInstructionRuns : Obligations.EncodedInstructionRuns := by
  intro i s hw hr hp hpc hword
  have fetched : s.fetchWord = encode i := by rw [State.fetchWord, State.readValue_plain s hpc, hword]
  rw [step_between hr hp, fetched, decode_encode hw, State.afterFetch_plain s hpc]
end

section
/-! PROOFS. The register file and the flags: what a write changes and what the flag of a word is
(spec/10_state.md R20, R26). -/

namespace Sys2Proof.Machine

theorem onlyRegsPcCond_writeReg (s : State) (r : RegNo) (v : Word) :
    OnlyRegsPcCond s (s.writeReg r v) [r] where
  regs _ hx := s.writeReg_readReg_other v (by simpa using hx)
  mem _ := rfl
  run := rfl
  phase := rfl
  kbd := rfl
  conOut := rfl

theorem onlyRegsPcCond_setCond (s : State) (c : BitVec 3) : OnlyRegsPcCond s (s.setCond c) [] :=
  ⟨fun _ _ => rfl, fun _ => rfl, rfl, rfl, rfl, rfl⟩

/-- The model's flag of a word, by its sign bit, is the spec's, by its signed value (R26). -/
theorem condOf_spec (v : Word) : CondOf v (condOf v) where
  negative h := by
    have sign : v.msb = true := by simpa [BitVec.msb_eq_toInt] using h
    rw [condOf, if_pos sign]; rfl
  zero h := by
    obtain rfl : v = 0 := BitVec.eq_of_toInt_eq h
    rfl
  positive h := by
    have sign : v.msb = false := by simpa [BitVec.msb_eq_toInt] using h.le
    have nonzero : v ≠ 0 := by rintro rfl; exact absurd h (by decide)
    rw [condOf, if_neg (by simp [sign]), if_neg nonzero]; rfl

/-- A write to a destination register sets the flags from what the register then holds (R27). -/
theorem condOf_writeDest (s : State) (dr : RegNo) (v : Word) :
    CondOf ((s.writeDest dr v).readReg dr) (s.writeDest dr v).cond := by
  simpa using condOf_spec v

end Sys2Proof.Machine
end

section
/-! PROOFS. Memory read back: the canonical form is determined by what it reads, and what an image leaves at an
address (spec/10_state.md R29, R37, spec/70_reset_and_hazards.md R213 to R216). -/

namespace Sys2Proof.Machine

/-- In a memory with rising addresses the cells of nonzero words are exactly the nonzero reads. -/
theorem Memory.mem_iff_read {m : Memory} (hm : m.Pairwise (fun c d => c.1 < d.1)) {a : Nat} {v : Word}
    (hv : v ≠ 0) : (a, v) ∈ m ↔ m.read a = v := by
  induction m with
  | nil => simpa using hv.symm
  | cons c m ih =>
    obtain ⟨b, u⟩ := c
    obtain ⟨rising, hm⟩ := List.pairwise_cons.mp hm
    rw [List.mem_cons, Memory.read_cons, Prod.mk.injEq, ih hm]
    split
    case isTrue hb =>
      have absent : Memory.read m a ≠ v := fun h => (rising _ ((ih hm).mpr h)).ne hb
      simp [hb, absent, eq_comm]
    case isFalse hb => simp [Ne.symm hb]

/-- The same reads give the same cells, and rising addresses leave them one order. -/
theorem Memory.eq_of_read_eq {m m' : Memory} (h : m.wf) (h' : m'.wf)
    (same : ∀ a, a < Config.memWords → m.read a = m'.read a) : m = m' := by
  have irrefl : Std.Irrefl (fun c d : Cell => c.1 < d.1) := ⟨fun c => lt_irrefl c.1⟩
  obtain ⟨rising, cells⟩ := h
  obtain ⟨rising', cells'⟩ := h'
  refine rising.eq_of_mem_iff rising' fun ⟨a, v⟩ => ⟨fun hc => ?_, fun hc => ?_⟩
  · obtain ⟨ha, hv⟩ := cells _ hc
    rwa [Memory.mem_iff_read rising' hv, ← same a ha, ← Memory.mem_iff_read rising hv]
  · obtain ⟨ha, hv⟩ := cells' _ hc
    rwa [Memory.mem_iff_read rising hv, same a ha, ← Memory.mem_iff_read rising' hv]

/-! ### Images -/

theorem wordOfBytes_toNat (hi lo : Byte) : (wordOfBytes hi lo).toNat = hi.toNat * 256 + lo.toNat :=
  toNat_append_add hi lo

/-- Big-endian: the first byte counts 256 (R214). -/
theorem wordOfBytes_eq (hi lo : Byte) : wordOfBytes hi lo = BitVec.ofNat 16 (hi.toNat * 256 + lo.toNat) := by
  rw [← wordOfBytes_toNat, BitVec.ofNat_toNat, BitVec.setWidth_eq]

/-- What loading leaves at an address: the word of the bytes at its place, where there are two and the address
exists, and else what was there (R214, R216). -/
theorem loadWords_read (m : Memory) (a : Nat) (bytes : List Byte) (x : Nat) :
    (loadWords m a bytes).read x = if a ≤ x ∧ x < a + bytes.length / 2 ∧ x < Config.memWords then
      wordOfBytes (bytes.getD (2 * (x - a)) 0) (bytes.getD (2 * (x - a) + 1) 0) else m.read x := by
  fun_induction loadWords m a bytes with
  | case1 m a hi lo rest ha ih =>
    rw [ih, Memory.read_write]
    obtain hx | rfl | hx := lt_trichotomy x a
    · rw [if_neg (by omega), if_neg (by omega), if_neg (by omega)]
    · rw [if_neg (by omega), if_pos rfl, if_pos (by simp; omega)]
      simp
    · obtain ⟨k, rfl⟩ : ∃ k, x = a + 1 + k := ⟨x - (a + 1), by omega⟩
      have place : 2 * (a + 1 + k - a) = 2 * k + 2 := by omega
      rw [if_neg (c := a = a + 1 + k) (by omega), place]
      refine if_congr (by simp; omega) ?_ rfl
      simp
  | case2 m a hi lo rest ha => rw [if_neg (by omega)]
  | case3 bytes m a short =>
    have : bytes.length < 2 := by
      match bytes, short with
      | [], _ | [_], _ => simp
      | hi :: lo :: rest, short => exact absurd rfl (short hi lo rest)
    rw [if_neg (by omega)]

/-- An image's words are its origin's and the following, as many as the rest of the file makes (R214). -/
theorem imageCovers_cons (hi lo : Byte) (rest : List Byte) (a : Word) : imageCovers (hi :: lo :: rest) a ↔
    (wordOfBytes hi lo).toNat ≤ a.toNat ∧ a.toNat < (wordOfBytes hi lo).toNat + rest.length / 2 ∧
      a.toNat < Config.memWords := by
  have := a.isLt
  simp [imageCovers, imageCount, imageOrigin, wordOfBytes_toNat, Config.memWords]
  omega

/-- A file of fewer than two bytes covers nothing (R216). -/
theorem exists_cons_of_imageCovers {file : List Byte} {a : Word} (h : imageCovers file a) :
    ∃ hi lo rest, file = hi :: lo :: rest := by
  have words : 2 ≤ file.length := by unfold imageCovers imageCount at h; omega
  obtain _ | ⟨hi, _ | ⟨lo, rest⟩⟩ := file
  · simp at words
  · simp at words
  · exact ⟨hi, lo, rest, rfl⟩

/-- Where an image covers an address, its word is there (R214). -/
theorem loadImage_read_covered {file : List Byte} {a : Word} (h : imageCovers file a) (m : Memory) :
    (loadImage m file).read a.toNat = imageWord file (a.toNat - imageOrigin file) := by
  obtain ⟨hi, lo, rest, rfl⟩ := exists_cons_of_imageCovers h
  have origin : imageOrigin (hi :: lo :: rest) = (wordOfBytes hi lo).toNat := (wordOfBytes_toNat hi lo).symm
  rw [loadImage, loadWords_read, if_pos ((imageCovers_cons ..).mp h), wordOfBytes_eq, imageWord, origin,
    Nat.add_comm 2, Nat.add_comm 3]
  simp only [List.getD_cons_succ]

/-- Everywhere else memory is as before (R214). -/
theorem loadImage_read_uncovered {file : List Byte} {a : Word} (h : ¬ imageCovers file a) (m : Memory) :
    (loadImage m file).read a.toNat = m.read a.toNat := by
  unfold loadImage
  split
  · rw [loadWords_read, if_neg (mt (imageCovers_cons ..).mpr h)]
  · rfl

theorem loadImages_read_uncovered {images : List (List Byte)} {a : Word}
    (h : ∀ f ∈ images, ¬ imageCovers f a) (m : Memory) :
    (images.foldl loadImage m).read a.toNat = m.read a.toNat := by
  induction images generalizing m with
  | nil => rfl
  | cons f images ih =>
    obtain ⟨hf, rest⟩ := List.forall_mem_cons.mp h
    rw [List.foldl_cons, ih rest, loadImage_read_uncovered hf]

/-- Later images load over earlier ones (R215). -/
theorem loadImages_read_last {pre post : List (List Byte)} {f : List Byte} {a : Word} (hf : imageCovers f a)
    (hpost : ∀ g ∈ post, ¬ imageCovers g a) (m : Memory) :
    ((pre ++ f :: post).foldl loadImage m).read a.toNat = imageWord f (a.toNat - imageOrigin f) := by
  rw [List.foldl_append, List.foldl_cons, loadImages_read_uncovered hpost, loadImage_read_covered hf]

/-- Deliveries queue their bytes in order and do nothing else (R32). -/
theorem foldl_deliverKey (keys : List Byte) (s : State) :
    keys.foldl State.deliverKey s = s.setKbd (s.kbd ++ keys) := by
  induction keys generalizing s with
  | nil => simp; rfl
  | cons b keys ih => rw [List.foldl_cons, ih]; simp [State.deliverKey]; rfl

theorem reset_readReg (r : RegNo) : State.reset.readReg r = 0 := by
  revert r; decide

end Sys2Proof.Machine
end

section
/-! PROOFS. What a service leaves: the byte taken into R0, the hold, and the frame of TRAP around them
(spec/43_trap_and_system.md R150 to R157). -/

namespace Sys2Proof.Machine

/-- IN ends as GETC does, after its echo (R153, R156). -/
theorem finishIn_eq (b : Byte) (s : State) : finishIn b s = finishGetc b (s.emit [b]) := rfl

@[simp] theorem finishGetc_conOut (b : Byte) (s : State) : (finishGetc b s).conOut = s.conOut := rfl

theorem finishGetc_readReg_zero (b : Byte) (s : State) : ((finishGetc b s).readReg 0).toNat = b.toNat :=
  (congrArg BitVec.toNat (s.writeReg_readReg_same 0 (zext16 b))).trans (zext16_toNat b)

theorem finishGetc_readReg (b : Byte) (s : State) {r : RegNo} (h : r ≠ 0) :
    (finishGetc b s).readReg r = s.readReg r := s.writeReg_readReg_other (zext16 b) h

theorem condOf_finishGetc (b : Byte) (s : State) :
    CondOf ((finishGetc b s).readReg 0) (finishGetc b s).cond := condOf_writeDest s 0 (zext16 b)

/-- The frame of a service that writes no register: TRAP entry's write of R7 is all (R150, R151). -/
theorem trapFrame_of_regs {s t : State} (regs : t.regs = s.trapEntry.regs) (pc : t.pc = s.pc) :
    TrapFrame s t [] := by
  have reads (r : RegNo) : t.readReg r = s.trapEntry.readReg r := by simp only [State.readReg, regs]
  exact ⟨(reads 7).trans (s.writeReg_readReg_same 7 s.pc),
    fun r hr _ => (reads r).trans (s.writeReg_readReg_other s.pc hr), pc⟩

/-- Taking a byte adds R0 to what the service writes (R153, R156). -/
theorem TrapFrame.finishGetc {s u : State} (h : TrapFrame s u []) (b : Byte) :
    TrapFrame s (finishGetc b u) [0] where
  link := (finishGetc_readReg b u (by decide)).trans h.link
  regs r hr h0 := (finishGetc_readReg b u (by simpa using h0)).trans (h.regs r hr (by simp))
  pc := h.pc

/-- A held service has no step without a byte (U6). -/
theorem step_ne_next_of_held {s : State} (hp : s.trapPhase ≠ .none) (hk : s.kbd = []) (t : State) :
    step s ≠ .next t := by
  intro ht
  obtain ⟨-, ⟨between, -⟩ | ⟨b, q, hq, -⟩⟩ := step_next ht
  · exact hp between
  · simp [hk] at hq

/-- Everything GETC and IN can do on their TRAP: hold, or take the head byte; GETC writes nothing to the console
(R150, R153, R156). -/
theorem exec_readsKey {i : Instr} (hi : i.readsKey = true) {s t : State} (ht : exec i s = .next t) :
    ∃ bs, (i.prints = false → bs = []) ∧
      (s.kbd = [] ∧ (∃ p, t = (s.trapEntry.emit bs).setTrapPhase p) ∨
       ∃ b q, s.kbd = b :: q ∧ t = finishGetc b ((s.trapEntry.emit bs).setKbd q)) := by
  cases i with
  | getc =>
    cases ht
    have silent : s.trapEntry.emit [] = s.trapEntry := by simp [State.emit]; rfl
    refine ⟨[], fun _ => rfl, ?_⟩
    rw [silent]
    cases hk : s.kbd with
    | nil => exact .inl ⟨rfl, _, serviceGetc_nil (s := s.trapEntry) hk⟩
    | cons b q => exact .inr ⟨b, q, rfl, serviceGetc_cons (s := s.trapEntry) hk⟩
  | inChar =>
    cases ht
    cases hk : s.kbd with
    | nil => exact ⟨inPrompt, nofun, .inl ⟨rfl, _, serviceIn_nil (s := s.trapEntry) hk⟩⟩
    | cons b q =>
      refine ⟨inPrompt ++ [b], nofun, .inr ⟨b, q, rfl, ?_⟩⟩
      rw [serviceIn_cons (s := s.trapEntry) hk, finishIn_eq]
      simp [State.emit, State.setKbd]
  | _ => cases hi

theorem WalkFrame.of_serviceString {f : Word → List Byte} {s t : State} (h : serviceString f s = .next t) :
    WalkFrame s t := by
  obtain ⟨u, hu, frame⟩ := serviceString_next f s
  obtain rfl : u = t := by simpa [hu] using h
  exact frame

theorem WalkFrame.readReg {s t : State} (w : WalkFrame s t) (r : RegNo) : t.readReg r = s.readReg r := by
  simp only [State.readReg, w.regs]

end Sys2Proof.Machine
end

section
/-! PROOFS. What each instruction writes of the registers, the flags, `pc`, the console and the keyboard queue, said
once for each of them over all instructions (spec/10_state.md R20 to R33). -/

namespace Sys2Proof.Machine

@[simp] theorem State.loadInto_eq (s : State) (dr : RegNo) (a : Word) :
    s.loadInto dr a = (s.afterRead a).writeDest dr (s.readValue a) := rfl

/-- A branch writes `pc` at most (R140). -/
theorem State.branch_eq_setPc (s : State) (nzp : BitVec 3) (off9 : BitVec 9) :
    ∃ p, s.branch nzp off9 = s.setPc p := by
  unfold State.branch
  split
  · exact ⟨_, rfl⟩
  · exact ⟨s.pc, rfl⟩

@[simp] theorem State.branch_readReg (s : State) (nzp : BitVec 3) (off9 : BitVec 9) (r : RegNo) :
    (s.branch nzp off9).readReg r = s.readReg r := by
  obtain ⟨p, e⟩ := s.branch_eq_setPc nzp off9
  rw [e, State.setPc_readReg]

@[simp] theorem State.branch_cond (s : State) (nzp : BitVec 3) (off9 : BitVec 9) :
    (s.branch nzp off9).cond = s.cond := by
  obtain ⟨p, e⟩ := s.branch_eq_setPc nzp off9
  rw [e, State.setPc_cond]

@[simp] theorem State.branch_kbd (s : State) (nzp : BitVec 3) (off9 : BitVec 9) :
    (s.branch nzp off9).kbd = s.kbd := by
  obtain ⟨p, e⟩ := s.branch_eq_setPc nzp off9
  rw [e, State.setPc_kbd]

@[simp] theorem State.branch_conOut (s : State) (nzp : BitVec 3) (off9 : BitVec 9) :
    (s.branch nzp off9).conOut = s.conOut := by
  obtain ⟨p, e⟩ := s.branch_eq_setPc nzp off9
  rw [e, State.setPc_conOut]

/-- Mask 000 never branches (R88). -/
theorem State.branch_zero (s : State) (off9 : BitVec 9) : s.branch 0 off9 = s := by
  simp [State.branch, State.brTaken]

/-! The equations by which a TRAP with a string service's vector is that service; the other vectors' hold by `rfl`. -/

theorem exec_trap_puts (ign : BitVec 4) : exec (.trap ign 0x22) = exec (.puts ign) := by
  funext s
  change execTrap ign 0x22 s = execPuts s
  simp [execTrap, execPuts]

theorem exec_trap_putsp (ign : BitVec 4) : exec (.trap ign 0x24) = exec (.putsp ign) := by
  funext s
  change execTrap ign 0x24 s = execPutsp s
  simp [execTrap, execPutsp]

/-- Every term does what a well-formed one does, which transfers control, or is a BR, only where the term is
(R91, log 7). -/
theorem exec_eq_wellFormed (i : Instr) : ∃ j : Instr, j.wellFormed = true ∧ exec i = exec j ∧
    (i.transfers = false → j.transfers = false) ∧
    ((∀ nzp off9, i ≠ .br nzp off9) → ∀ nzp off9, j ≠ .br nzp off9) := by
  cases hw : i.wellFormed with
  | true => exact ⟨i, hw, rfl, id, id⟩
  | false =>
    cases i with
    | br nzp off9 =>
      obtain rfl : nzp = 0 := by simpa [Instr.wellFormed] using hw
      exact ⟨.nop off9, rfl, rfl, nofun, nofun⟩
    | jmp ignHi base ignLo =>
      obtain rfl : base = 7 := by simpa [Instr.wellFormed] using hw
      exact ⟨.ret ignHi ignLo, rfl, rfl, nofun, nofun⟩
    | trap ign vect =>
      have service : isServiceVector vect = true := by simpa [Instr.wellFormed] using hw
      obtain rfl | rfl | rfl | rfl | rfl | rfl := (isServiceVector_iff vect).mp service
      · exact ⟨.getc ign, rfl, rfl, id, nofun⟩
      · exact ⟨.out ign, rfl, rfl, id, nofun⟩
      · exact ⟨.puts ign, rfl, exec_trap_puts ign, id, nofun⟩
      · exact ⟨.inChar ign, rfl, rfl, id, nofun⟩
      · exact ⟨.putsp ign, rfl, exec_trap_putsp ign, id, nofun⟩
      · exact ⟨.halt ign, rfl, rfl, id, nofun⟩
    | _ => cases hw

/-! ### The flags (R27) -/

theorem exec_cond_of_destReg {i : Instr} {r : RegNo} (hr : i.destReg = some r) {s t : State}
    (ht : exec i s = .next t) : CondOf (t.readReg r) t.cond := by
  cases i with
  | addReg | addImm | andReg | andImm | not | lea | ld | ldr | ldi =>
    cases hr; cases ht; exact condOf_writeDest _ _ _
  | _ => cases hr

theorem exec_cond_of_byte {i : Instr} (hi : i.readsKey = true) {s t : State} (hk : s.kbd ≠ [])
    (ht : exec i s = .next t) : CondOf (t.readReg 0) t.cond := by
  obtain ⟨bs, -, ⟨hn, -⟩ | ⟨b, q, -, rfl⟩⟩ := exec_readsKey hi ht
  · exact absurd hn hk
  · exact condOf_finishGetc b _

theorem destReg_of_readsKey {i : Instr} (hi : i.readsKey = true) : i.destReg = none := by
  cases i with
  | getc | inChar => rfl
  | _ => cases hi

theorem exec_cond_frame {i : Instr} (hw : i.wellFormed = true) {s t : State} (hd : i.destReg = none)
    (hk : i.readsKey = true → s.kbd = []) (ht : exec i s = .next t) : t.cond = s.cond := by
  cases i with
  | addReg | addImm | andReg | andImm | not | lea | ld | ldr | ldi => cases hd
  | br | nop => cases ht; simp
  | sti => cases ht; exact s.afterRead_cond _
  | getc | inChar =>
    obtain ⟨bs, -, ⟨-, p, rfl⟩ | ⟨b, q, hq, -⟩⟩ := exec_readsKey rfl ht
    · rfl
    · simp [hk rfl] at hq
  | puts | putsp => exact (WalkFrame.of_serviceString ht).cond
  | trap => rw [exec_trap_unknown hw] at ht; cases ht; rfl
  | _ => cases ht; rfl

/-! ### The flags are not read (R27) -/

theorem setCond_pcRel9 (s : State) (c : BitVec 3) (off9 : BitVec 9) :
    (s.setCond c).pcRel9 off9 = s.pcRel9 off9 := rfl

theorem loadInto_setCond (s : State) (c : BitVec 3) (dr : RegNo) (a : Word) :
    (s.setCond c).loadInto dr a = s.loadInto dr a := by
  rw [State.loadInto, State.afterRead_setCond, State.readValue_setCond]
  rfl

/-- A write of a destination register overwrites the flags, whatever they were. -/
theorem exec_setCond_of_destReg {i : Instr} {r : RegNo} (hr : i.destReg = some r) (s : State) (c : BitVec 3) :
    exec i (s.setCond c) = exec i s := by
  cases i with
  | addReg | addImm | andReg | andImm | not | lea => rfl
  | ld | ldr => exact congrArg Host.Outcome.next (loadInto_setCond s c _ _)
  | ldi =>
    simp only [exec, execLdi, setCond_pcRel9, State.afterRead_setCond, State.readValue_setCond,
      loadInto_setCond]
  | _ => cases hr

theorem serviceGetc_setCond (s : State) (c : BitVec 3) :
    ∃ c', serviceGetc (s.setCond c) = (serviceGetc s).setCond c' := by
  cases hk : s.kbd with
  | nil => exact ⟨c, by rw [serviceGetc_nil hk, serviceGetc_nil (s := s.setCond c) hk]; rfl⟩
  | cons b q => exact ⟨_, by rw [serviceGetc_cons hk, serviceGetc_cons (s := s.setCond c) hk]; rfl⟩

theorem serviceIn_setCond (s : State) (c : BitVec 3) :
    ∃ c', serviceIn (s.setCond c) = (serviceIn s).setCond c' := by
  cases hk : s.kbd with
  | nil => exact ⟨c, by rw [serviceIn_nil hk, serviceIn_nil (s := s.setCond c) hk]; rfl⟩
  | cons b q => exact ⟨_, by rw [serviceIn_cons hk, serviceIn_cons (s := s.setCond c) hk]; rfl⟩

theorem stringWalk_setCond (f : Word → List Byte) (c : BitVec 3) (n : Nat) (a : Word) (s : State) :
    stringWalk f n a (s.setCond c) = (stringWalk f n a s).map (State.setCond · c) := by
  induction n generalizing a s with
  | zero => rfl
  | succ n ih =>
    rw [stringWalk_succ, stringWalk_succ, State.readValue_setCond, State.afterRead_setCond]
    split
    · rfl
    · exact ih (a + 1) ((s.afterRead a).emit (f (s.readValue a)))

theorem serviceString_setCond {f : Word → List Byte} {s t : State} (h : serviceString f s = .next t)
    (c : BitVec 3) : serviceString f (s.setCond c) = .next (t.setCond c) := by
  rw [serviceString_eq_next] at h ⊢
  exact (stringWalk_setCond f c _ _ s).trans (congrArg _ h)

/-- From any other flags the instructions with a DR, GETC and IN leave the flags they set; the others keep them. -/
theorem exec_setCond {i : Instr} (hw : i.wellFormed = true) (hb : ∀ nzp off9, i ≠ .br nzp off9) {s t : State}
    (ht : exec i s = .next t) (c : BitVec 3) : ∃ c', exec i (s.setCond c) = .next (t.setCond c') := by
  cases i with
  | br nzp off9 => exact absurd rfl (hb nzp off9)
  | addReg | addImm | andReg | andImm | not | lea | ld | ldr | ldi =>
    exact ⟨t.cond, (exec_setCond_of_destReg rfl s c).trans ht⟩
  | sti =>
    cases ht
    simp only [exec, execSti, setCond_pcRel9, State.afterRead_setCond, State.readValue_setCond]
    exact ⟨c, rfl⟩
  | nop off9 =>
    cases ht
    refine ⟨c, congrArg Host.Outcome.next ?_⟩
    rw [s.branch_zero, (s.setCond c).branch_zero]
  | getc => cases ht; exact (serviceGetc_setCond s.trapEntry c).imp fun _ => congrArg _
  | inChar => cases ht; exact (serviceIn_setCond s.trapEntry c).imp fun _ => congrArg _
  | puts | putsp => exact ⟨c, serviceString_setCond ht c⟩
  | trap =>
    rw [exec_trap_unknown hw] at ht ⊢
    cases ht; exact ⟨c, rfl⟩
  | _ => cases ht; exact ⟨c, rfl⟩

/-! ### Registers (R22, R145, R151) -/

theorem exec_link {i : Instr} (hw : i.wellFormed = true) (hl : i.links = true) {s t : State}
    (ht : exec i s = .next t) : t.readReg 7 = s.pc := by
  have entry : s.trapEntry.readReg 7 = s.pc := s.writeReg_readReg_same 7 s.pc
  cases i with
  | jsr | jsrr | out | halt => cases ht; exact entry
  | trap => rw [exec_trap_unknown hw] at ht; cases ht; exact entry
  | getc | inChar =>
    obtain ⟨bs, -, ⟨-, p, rfl⟩ | ⟨b, q, -, rfl⟩⟩ := exec_readsKey rfl ht
    · exact entry
    · exact (finishGetc_readReg b _ (by decide)).trans entry
  | puts | putsp => exact ((WalkFrame.of_serviceString ht).readReg 7).trans entry
  | _ => cases hl

theorem exec_readReg_frame {i : Instr} (hw : i.wellFormed = true) {s t : State} (ht : exec i s = .next t)
    {r : RegNo} (hd : i.destReg ≠ some r) (hl : i.links = true → r ≠ 7)
    (hk : i.readsKey = true → r = 0 → s.kbd = []) : t.readReg r = s.readReg r := by
  have entry (h : r ≠ 7) : s.trapEntry.readReg r = s.readReg r := s.writeReg_readReg_other s.pc h
  cases i with
  | addReg dr | addImm dr | andReg dr | andImm dr | not dr | lea dr | ld dr | ldr dr | ldi dr =>
    have other : dr ≠ r := fun e => hd (congrArg some e)
    cases ht; simp [State.writeReg_readReg, other]
  | jsr | jsrr | out | halt => cases ht; exact entry (hl rfl)
  | trap => rw [exec_trap_unknown hw] at ht; cases ht; exact entry (hl rfl)
  | getc | inChar =>
    obtain ⟨bs, -, ⟨-, p, rfl⟩ | ⟨b, q, hq, rfl⟩⟩ := exec_readsKey rfl ht
    · exact entry (hl rfl)
    · have notR0 : r ≠ 0 := fun h0 => by simp [hk rfl h0] at hq
      exact (finishGetc_readReg b _ notR0).trans (entry (hl rfl))
  | puts | putsp => exact ((WalkFrame.of_serviceString ht).readReg r).trans (entry (hl rfl))
  | br | nop => cases ht; simp
  | sti => cases ht; exact s.afterRead_readReg _ r
  | _ => cases ht; rfl

/-! ### The program counter (R24) -/

theorem exec_pc_frame {i : Instr} (hw : i.wellFormed = true) (hi : i.transfers = false) {s t : State}
    (ht : exec i s = .next t) : t.pc = s.pc := by
  cases i with
  | br | jmp | ret | jsr | jsrr => cases hi
  | nop off9 => cases ht; exact congrArg State.pc (s.branch_zero off9)
  | ld | ldr | ldi | sti => cases ht; simp
  | getc | inChar =>
    obtain ⟨bs, -, ⟨-, p, rfl⟩ | ⟨b, q, -, rfl⟩⟩ := exec_readsKey rfl ht
    · rfl
    · rfl
  | puts | putsp => exact (WalkFrame.of_serviceString ht).pc
  | trap => rw [exec_trap_unknown hw] at ht; cases ht; rfl
  | _ => cases ht; rfl

/-! ### The console (R33) -/

theorem exec_conOut_frame {i : Instr} (hw : i.wellFormed = true) (hi : i.prints = false) {s t : State}
    (ht : exec i s = .next t) : t.conOut = s.conOut := by
  cases i with
  | out | puts | inChar | putsp | halt => cases hi
  | br | nop => cases ht; simp
  | ld | ldr | ldi | sti => cases ht; simp
  | getc =>
    obtain ⟨bs, silent, ⟨-, p, rfl⟩ | ⟨b, q, -, rfl⟩⟩ := exec_readsKey rfl ht
    · simp [silent rfl]
    · simp [silent rfl]
  | trap => rw [exec_trap_unknown hw] at ht; cases ht; rfl
  | _ => cases ht; rfl

theorem exec_conOut_prefix {i : Instr} (hw : i.wellFormed = true) {s t : State} (ht : exec i s = .next t) :
    s.conOut <+: t.conOut := by
  cases hi : i.prints with
  | false => rw [exec_conOut_frame hw hi ht]
  | true =>
    cases i with
    | out | halt => cases ht; exact List.prefix_append ..
    | inChar =>
      obtain ⟨bs, -, ⟨-, p, rfl⟩ | ⟨b, q, -, rfl⟩⟩ := exec_readsKey rfl ht
      · exact List.prefix_append ..
      · exact List.prefix_append ..
    | puts | putsp => exact (WalkFrame.of_serviceString ht).conOut
    | _ => cases hi

/-! ### The keyboard queue (R32) -/

theorem State.loadInto_kbd_suffix (s : State) (dr : RegNo) (a : Word) : (s.loadInto dr a).kbd <:+ s.kbd :=
  s.afterRead_kbd_suffix a

theorem exec_kbd_suffix {i : Instr} (hw : i.wellFormed = true) {s t : State} (ht : exec i s = .next t) :
    t.kbd <:+ s.kbd := by
  cases i with
  | br | nop => cases ht; simp
  | ld | ldr => cases ht; exact s.loadInto_kbd_suffix _ _
  | ldi => cases ht; exact ((s.afterRead _).loadInto_kbd_suffix _ _).trans (s.afterRead_kbd_suffix _)
  | sti => cases ht; exact s.afterRead_kbd_suffix _
  | getc | inChar =>
    obtain ⟨bs, -, ⟨-, p, rfl⟩ | ⟨b, q, hq, rfl⟩⟩ := exec_readsKey rfl ht
    · exact List.suffix_rfl
    · exact hq ▸ List.suffix_cons b q
  | puts | putsp => exact (WalkFrame.of_serviceString ht).kbd
  | trap => rw [exec_trap_unknown hw] at ht; cases ht; exact List.suffix_rfl
  | _ => cases ht; exact List.suffix_rfl

end Sys2Proof.Machine
end

section
/-! PROOFS. The statements of spec/10_state.md. -/

open Sys2Proof Sys2Proof.Machine

/-- Settles O55: `step_inv`, whose cases are those of `step_next`. -/
theorem stepKeepsInvariant : Obligations.StepKeepsInvariant := fun _ _ => step_inv

/-- Settles O7: each memory lists exactly the cells of its nonzero reads, in the one rising order. -/
theorem canonicalMemoriesAreEqual : Obligations.CanonicalMemoriesAreEqual := fun _ _ => Memory.eq_of_read_eq

/-- Settles O9: the deliveries change the queue alone, and the images memory alone. -/
theorem launchState : Obligations.LaunchState := by
  intro images keys
  rw [foldl_deliverKey]
  refine ⟨reset_readReg, rfl, rfl, rfl, rfl, rfl, rfl, fun a bare => ?_, fun a pre f post order hf last => ?_⟩
  · exact loadImages_read_uncovered bare _
  · subst order
    exact loadImages_read_last hf last _

/-- Settles O27: GETC's two ends, and the resumed service by `step_waitGetc`. -/
theorem getcTakesOneByte : Obligations.GetcTakesOneByte := by
  intro ign s
  refine ⟨fun b q hk => ?_, fun hk => ?_, fun hr hp => ⟨fun hk => ?_, fun b q hk => ?_⟩⟩
  · have frame : TrapFrame s (s.trapEntry.setKbd q) [] := trapFrame_of_regs rfl rfl
    exact ⟨_, congrArg Host.Outcome.next (serviceGetc_cons (s := s.trapEntry) hk), finishGetc_readReg_zero b _,
      condOf_finishGetc b _, rfl, rfl, frame.finishGetc b, fun _ => rfl, rfl, rfl⟩
  · exact ⟨_, congrArg Host.Outcome.next (serviceGetc_nil (s := s.trapEntry) hk), rfl,
      trapFrame_of_regs rfl rfl, rfl, hk, fun _ => rfl, rfl, rfl⟩
  · exact step_ne_next_of_held (by simp [hp]) hk
  · exact ⟨_, step_waitGetc hr hp hk, finishGetc_readReg_zero b _, condOf_finishGetc b _, rfl, rfl, rfl,
      fun _ h0 => finishGetc_readReg b _ h0, fun _ => rfl, rfl, rfl⟩

/-- Settles O28: as O27, with the prompt before and the echo after (`finishIn_eq`). -/
theorem inPromptsEchoesAndTakesOneByte : Obligations.InPromptsEchoesAndTakesOneByte := by
  intro ign s
  refine ⟨fun b q hk => ?_, fun hk => ?_, fun hr hp => ⟨fun hk => ?_, fun b q hk => ?_⟩⟩
  · have taken : serviceIn s.trapEntry = finishGetc b (((s.trapEntry.emit inPrompt).setKbd q).emit [b]) :=
      serviceIn_cons hk
    have frame : TrapFrame s (((s.trapEntry.emit inPrompt).setKbd q).emit [b]) [] := trapFrame_of_regs rfl rfl
    exact ⟨_, congrArg Host.Outcome.next taken, finishGetc_readReg_zero b _,
      condOf_finishGetc b _, rfl, rfl, frame.finishGetc b, fun _ => rfl, rfl, rfl⟩
  · exact ⟨_, congrArg Host.Outcome.next (serviceIn_nil (s := s.trapEntry) hk), rfl,
      trapFrame_of_regs rfl rfl, rfl, hk, fun _ => rfl, rfl, rfl⟩
  · exact step_ne_next_of_held (by simp [hp]) hk
  · have resumed : step s = .next (finishGetc b ((s.setKbd q).emit [b])) := step_waitIn hr hp hk
    exact ⟨_, resumed, finishGetc_readReg_zero b _, condOf_finishGetc b _, rfl, rfl, rfl,
      fun _ h0 => finishGetc_readReg b _ h0, fun _ => rfl, rfl, rfl⟩

/-- Settles O42: the three writers of the flags, and `exec_cond_frame` for the rest and the holds. -/
theorem flagsAreSetByTheirWritersOnly : Obligations.FlagsAreSetByTheirWritersOnly := by
  intro i s t hw ht
  refine ⟨fun r hr => exec_cond_of_destReg hr ht, fun hi hk => exec_cond_of_byte hi hk ht, fun hi hk => ?_,
    fun hd hi => exec_cond_frame hw hd (by simp [hi]) ht⟩
  exact exec_cond_frame hw (destReg_of_readsKey hi) (fun _ => hk) ht

/-- Settles O43, through the well-formed term that does the same. -/
theorem flagsAreReadByBranchesOnly : Obligations.FlagsAreReadByBranchesOnly := by
  intro i s t c hb ht
  obtain ⟨j, hw, e, -, notBr⟩ := exec_eq_wellFormed i
  rw [e] at ht ⊢
  exact exec_setCond hw (notBr hb) ht c

/-- Settles O44: `exec_link`, and `exec_readReg_frame` for every register not named. -/
theorem registersChangeOnlyAsNamed : Obligations.RegistersChangeOnlyAsNamed := by
  intro i s t hw ht
  refine ⟨fun hl => exec_link hw hl ht, fun r changed => ?_⟩
  by_contra named
  obtain ⟨notDest, notLink, notByte⟩ : i.destReg ≠ some r ∧ (i.links = true → r ≠ 7) ∧
      (i.readsKey = true → r = 0 → s.kbd = []) := by simpa using named
  exact changed (exec_readReg_frame hw ht notDest notLink notByte)

/-- Settles O45, through the well-formed term that does the same. -/
theorem onlyTransfersWritePc : Obligations.OnlyTransfersWritePc := by
  intro i s t ht hi
  obtain ⟨j, hw, e, stays, -⟩ := exec_eq_wellFormed i
  exact exec_pc_frame hw (stays hi) (e ▸ ht)

/-- Settles O47: an instruction by `exec_conOut_prefix`, a held service by its echo, if any. -/
theorem consoleOnlyGrows : Obligations.ConsoleOnlyGrows := by
  refine ⟨fun i s t hw ht hi => exec_conOut_frame hw hi ht, fun s t ht => ?_⟩
  obtain ⟨-, ⟨-, hx⟩ | ⟨b, q, -, ⟨-, rfl⟩ | ⟨-, rfl⟩⟩⟩ := step_next ht
  · simpa using exec_conOut_prefix (decode_wellFormed _) hx
  · exact List.prefix_rfl
  · exact List.prefix_append ..

/-- Settles O48: the fetch and the instruction each leave a tail, a held service takes the head. -/
theorem keyboardQueueIsTakenFromItsHead : Obligations.KeyboardQueueIsTakenFromItsHead := by
  refine ⟨fun s t ht => ?_, fun s b => ⟨rfl, rfl⟩⟩
  obtain ⟨-, ⟨-, hx⟩ | ⟨b, q, hk, held⟩⟩ := step_next ht
  · exact (exec_kbd_suffix (decode_wellFormed _) hx).trans s.afterFetch_kbd_suffix
  · obtain ⟨-, rfl⟩ | ⟨-, rfl⟩ := held <;> exact hk ▸ List.suffix_cons b q

/-- Settles O2, from the register laws. -/
theorem registerWriteReadsBack : Obligations.RegisterWriteReadsBack := fun s r v =>
  ⟨s.writeReg_readReg_same r v, rfl, rfl, onlyRegsPcCond_writeReg s r v⟩

/-- Settles O3, from `condOf_spec`. -/
theorem setccFollowsSign : Obligations.SetccFollowsSign := fun s v =>
  ⟨condOf_spec v, rfl, onlyRegsPcCond_setCond s _⟩

/-- Settles O54: reset is the launch with no image. -/
theorem launchMeetsInvariant : Obligations.LaunchMeetsInvariant :=
  ⟨(launch_soundBetween []).inv, fun images => (launch_soundBetween images).inv⟩
end

section
/-! PROOFS. What a store, a read and each instruction leave of memory, and the step whose fetch does not poll
(spec/20_memory.md R52 to R66). -/

namespace Sys2Proof.Machine

theorem onlyStore_memWrite (s : State) (a v : Word) : OnlyStore s (s.memWrite a v) a v where
  stored := s.memWrite_peek_same a v
  mem _ hx := s.memWrite_peek_other v hx
  regs _ := rfl
  pc := rfl
  cond := rfl
  run := rfl
  phase := rfl
  kbd := rfl
  conOut := rfl

theorem onlyRegsCondMemKbd_afterRead (s : State) (a : Word) : OnlyRegsCondMemKbd s (s.afterRead a) [] where
  regs r _ := s.afterRead_readReg a r
  pc := s.afterRead_pc a
  run := s.afterRead_run a
  phase := s.afterRead_trapPhase a
  conOut := s.afterRead_conOut a

/-- Of two stores at one address the later stands. -/
theorem State.memWrite_memWrite_peek (s : State) (a v w x : Word) :
    ((s.memWrite a v).memWrite a w).peek x = (s.memWrite a w).peek x := by
  simp only [State.memWrite_peek]
  split <;> rfl

/-- A poll writes KBSR whatever it finds, so it leaves no trace of a word stored there (R56). -/
theorem State.afterRead_memWrite_kbsr_peek (s : State) (v x : Word) :
    ((s.memWrite 0xFE00 v).afterRead 0xFE00).peek x = (s.afterRead 0xFE00).peek x := by
  simp only [State.afterRead_kbsr]
  cases hk : s.kbd with
  | nil =>
    rw [State.poll_nil hk, State.poll_nil (s := s.memWrite 0xFE00 v) hk, State.memWrite_memWrite_peek]
  | cons b q =>
    have later := (s.setKbd q).memWrite_memWrite_peek 0xFE00 v 0x8000 x
    rw [State.poll_cons hk, State.poll_cons (s := s.memWrite 0xFE00 v) hk, State.memWrite_peek,
      State.memWrite_peek _ 0xFE02]
    exact congrArg (if 0xFE02 = x then zext16 b else ·) later

/-! ### Reads (R53, R54) -/

theorem State.afterRead_kbd_nil {s : State} (h : s.kbd = []) (a : Word) : (s.afterRead a).kbd = [] :=
  List.suffix_nil.mp (h ▸ s.afterRead_kbd_suffix a)

/-- A poll that finds no byte writes KBSR alone (R54). -/
theorem State.afterRead_peek_nil {s : State} (h : s.kbd = []) (a : Word) {x : Word} (hx : x ≠ 0xFE00) :
    (s.afterRead a).peek x = s.peek x := by
  obtain ⟨e, -⟩ | ⟨-, -, e⟩ | ⟨b, q, -, hk, -⟩ := s.afterRead_cases a
  · rw [e]
  · rw [e, State.memWrite_peek_other _ _ hx]
  · simp [h] at hk

/-- A word that no poll of a read from this state writes: not KBSR, and KBDR only where no byte is there to take
(R54). -/
def State.PollSpares (s : State) (x : Word) : Prop := x ≠ 0xFE00 ∧ (x = 0xFE02 → s.kbd = [])

theorem State.PollSpares.peek {s : State} {x : Word} (h : s.PollSpares x) (a : Word) :
    (s.afterRead a).peek x = s.peek x := by
  by_cases hx : x = 0xFE02
  · exact State.afterRead_peek_nil (h.2 hx) a h.1
  · exact s.afterRead_peek a h.1 hx

theorem State.PollSpares.afterRead {s : State} {x : Word} (h : s.PollSpares x) (a : Word) :
    (s.afterRead a).PollSpares x := ⟨h.1, fun hx => State.afterRead_kbd_nil (h.2 hx) a⟩

/-- A string walk changes no word that its polls spare. -/
theorem stringWalk_peek (f : Word → List Byte) {x : Word} (n : Nat) :
    ∀ (a : Word) (s t : State), s.PollSpares x → stringWalk f n a s = some t → t.peek x = s.peek x := by
  induction n with
  | zero => intro a s t _ h; cases h
  | succ n ih =>
    intro a s t spared h
    rw [stringWalk_succ] at h
    split at h
    · cases h
      exact spared.peek a
    · have spared' : ((s.afterRead a).emit (f (s.readValue a))).PollSpares x := spared.afterRead a
      exact (ih _ _ _ spared' h).trans (spared.peek a)

theorem serviceString_peek {f : Word → List Byte} {s t : State} (h : serviceString f s = .next t) {x : Word}
    (spared : s.PollSpares x) : t.peek x = s.peek x :=
  stringWalk_peek f _ _ _ _ spared (serviceString_eq_next.mp h)

/-! ### Instructions (R55, R127, R151) -/

/-- An instruction leaves every word but the one it stores to and those its polls write. -/
theorem exec_peek_frame {i : Instr} (hw : i.wellFormed = true) {s t : State} (ht : exec i s = .next t) {x : Word}
    (hs : storeAddr i s ≠ some x) (hm : i.readsMemory = true → s.PollSpares x) : t.peek x = s.peek x := by
  cases i with
  | st | str => cases ht; exact s.memWrite_peek_other _ fun e => hs (congrArg some e.symm)
  | sti sr off9 =>
    cases ht
    have other : x ≠ s.readValue (s.pcRel9 off9) := fun e => hs (congrArg some e.symm)
    exact ((s.afterRead _).memWrite_peek_other _ other).trans ((hm rfl).peek _)
  | ld | ldr => cases ht; exact (hm rfl).peek _
  | ldi => cases ht; exact (((hm rfl).afterRead _).peek _).trans ((hm rfl).peek _)
  | puts | putsp => exact serviceString_peek (s := s.trapEntry) ht (hm rfl)
  | getc | inChar =>
    obtain ⟨bs, -, ⟨-, p, rfl⟩ | ⟨b, q, -, rfl⟩⟩ := exec_readsKey rfl ht
    · rfl
    · rfl
  | br nzp off9 =>
    obtain ⟨p, e⟩ := s.branch_eq_setPc nzp off9
    cases ht; rw [e]; rfl
  | nop off9 => cases ht; exact congrArg (State.peek · x) (s.branch_zero off9)
  | trap => rw [exec_trap_unknown hw] at ht; cases ht; rfl
  | _ => cases ht; rfl

theorem wellFormed_of_storeReg {i : Instr} {sr : RegNo} (h : i.storeReg = some sr) : i.wellFormed = true := by
  cases i with
  | st | str | sti => rfl
  | _ => cases h

/-- ST, STR and STI end with the store of SR's word; before it, STI's pointer read writes no register, `pc`, `run` or
`trapPhase` (R121, R123, R125). -/
theorem exec_store {i : Instr} {sr : RegNo} (hi : i.storeReg = some sr) {s : State} {a : Word}
    (ha : storeAddr i s = some a) : ∃ u : State, exec i s = .next (u.memWrite a (s.readReg sr)) ∧
      u.pc = s.pc ∧ u.run = s.run ∧ u.trapPhase = s.trapPhase := by
  cases i with
  | st | str => cases hi; cases ha; exact ⟨s, rfl, rfl, rfl, rfl⟩
  | sti => cases hi; cases ha; exact ⟨s.afterRead _, rfl, by simp, by simp, by simp⟩
  | _ => cases hi

/-- The step anywhere but at 0xFE00: the stored word at `pc`, decoded and run (R11, R53). -/
theorem step_stored {s : State} (hr : s.run = .running) (hp : s.trapPhase = .none) (hpc : s.pc ≠ 0xFE00) :
    step s = exec (decode (s.peek s.pc)) (s.setPc (s.pc + 1)) := by
  rw [step_between hr hp, State.fetchWord, State.readValue_plain s hpc, State.afterFetch_plain s hpc]

end Sys2Proof.Machine
end

section
/-! PROOFS. The statements of spec/20_memory.md. -/

open Sys2Proof Sys2Proof.Machine

/-- Settles O40: the store is the last thing the first step does, and the second fetches what it stored. -/
theorem storeIsSeenByNextFetch : Obligations.StoreIsSeenByNextFetch := by
  intro i sr s hr hp hpc hnext hword hi ha
  obtain ⟨u, hx, upc, urun, uphase⟩ := exec_store hi ha
  have first : step s = .next (u.memWrite (s.pc + 1) (s.readReg sr)) := by
    rw [step_stored hr hp hpc, hword, decode_encode (wellFormed_of_storeReg hi), hx, State.setPc_readReg]
  have tpc : (u.memWrite (s.pc + 1) (s.readReg sr)).pc = s.pc + 1 := upc
  have twice : s.pc + 1 + 1 = s.pc + 2 := BitVec.add_assoc s.pc 1 1
  refine ⟨_, first, tpc, ?_⟩
  rw [step_stored (s := u.memWrite _ _) (urun.trans hr) (uphase.trans hp) (by rwa [tpc]), tpc,
    State.memWrite_peek_same, twice]

/-- Settles O46: `exec_peek_frame` for every word not named. -/
theorem memoryChangesOnlyByStoresAndPolls : Obligations.MemoryChangesOnlyByStoresAndPolls := by
  intro i s t hw ht a changed
  by_contra named
  obtain ⟨notStored, notPolled⟩ := not_or.mp named
  refine changed (exec_peek_frame hw ht notStored fun hm => ?_)
  have spared := not_and.mp notPolled hm
  exact ⟨fun e => spared (.inl e), fun e => by_contra fun hk => spared (.inr ⟨e, hk⟩)⟩

/-- Settles O4, from the store's laws. -/
theorem writeStoresOneWord : Obligations.WriteStoresOneWord := onlyStore_memWrite

/-- Settles O5, from `memReadOf_afterRead` and the fields a read leaves. -/
theorem readPollsOnlyAtKbsr : Obligations.ReadPollsOnlyAtKbsr := fun s a =>
  ⟨memReadOf_afterRead s a, s.afterRead_cond a, onlyRegsCondMemKbd_afterRead s a⟩

/-- Settles O6: a poll hides a store to KBSR, and only one that takes a byte hides a store to KBDR. -/
theorem keyboardRegisterStores : Obligations.KeyboardRegisterStores := by
  intro s v
  have stored (a : Word) : (s.memWrite a v).peek a = v := s.memWrite_peek_same a v
  refine ⟨stored _, s.afterRead_memWrite_kbsr_peek v 0xFE00, s.afterRead_memWrite_kbsr_peek v,
    ?_, fun x hx => ?_, fun hk => ?_, fun b q hk => ?_, rfl, rfl⟩
  · rw [State.readValue_plain _ (by decide), stored]
  · rw [State.afterRead_plain _ hx, stored]
  · rw [State.afterRead_peek_nil (s := s.memWrite 0xFE02 v) hk _ (by decide), stored]
  · obtain ⟨-, -, kbdr, -⟩ := (memReadOf_afterRead (s.memWrite 0xFE02 v) 0xFE00).ready rfl b q hk
    exact kbdr
end

section
/-! PROOFS. The encoder gives every word back from its decoding (spec/30_encoding.md R82, R85, R91). -/

namespace Sys2Proof

/-! A row that names words of another gives a word the fields that row would give it (R91). -/

theorem encode_decodeBr (w : Word) : encode (decodeBr w) = encode (.br (bits w 9 3) (bits w 0 9)) := by
  unfold decodeBr
  split
  next mask => rw [mask]; rfl
  · rfl

theorem encode_decodeJmp (w : Word) :
    encode (decodeJmp w) = encode (.jmp (bits w 9 3) (bits w 6 3) (bits w 0 6)) := by
  unfold decodeJmp
  split
  next base => rw [base]; rfl
  · rfl

theorem encode_decodeTrap (w : Word) :
    encode (decodeTrap w) = encode (.trap (bits w 8 4) (bits w 0 8)) := by
  cases h : isServiceVector (bits w 0 8) with
  | false => rw [decodeTrap_unknown h]
  | true => rcases (isServiceVector_iff _).mp h with v | v | v | v | v | v <;> simp [decodeTrap, v, encode]

/-- Encoding gives a word back from its decoding: in each row the opcode, the mode bit where there is one, and the
fields are digits of the word's number, and together they are all of it. -/
theorem encode_decode (w : Word) : encode (decode w) = w := by
  have word := w.isLt
  refine BitVec.eq_of_toNat_eq ?_
  unfold decode
  split <;> simp only [bits_toNat, imp_false] at *
  · rw [encode_decodeBr, encode_br_toNat]; simp only [bits_toNat]; omega
  · unfold decodeAdd
    split <;> rename_i mode <;> simp [bits_eq_iff] at mode
    · simp only [encode_addImm_toNat, bits_toNat]; omega
    · simp only [encode_addReg_toNat, bits_toNat]; omega
  · simp only [encode_ld_toNat, bits_toNat]; omega
  · simp only [encode_st_toNat, bits_toNat]; omega
  · unfold decodeJsr
    split <;> rename_i mode <;> simp [bits_eq_iff] at mode
    · simp only [encode_jsr_toNat, bits_toNat]; omega
    · simp only [encode_jsrr_toNat, bits_toNat]; omega
  · unfold decodeAnd
    split <;> rename_i mode <;> simp [bits_eq_iff] at mode
    · simp only [encode_andImm_toNat, bits_toNat]; omega
    · simp only [encode_andReg_toNat, bits_toNat]; omega
  · simp only [encode_ldr_toNat, bits_toNat]; omega
  · simp only [encode_str_toNat, bits_toNat]; omega
  · simp only [encode_rti_toNat, bits_toNat]; omega
  · simp only [encode_not_toNat, bits_toNat]; omega
  · simp only [encode_ldi_toNat, bits_toNat]; omega
  · simp only [encode_sti_toNat, bits_toNat]; omega
  · rw [encode_decodeJmp, encode_jmp_toNat]; simp only [bits_toNat]; omega
  · simp only [encode_res_toNat, bits_toNat]; omega
  · simp only [encode_lea_toNat, bits_toNat]; omega
  · rw [encode_decodeTrap, encode_trap_toNat]; simp only [bits_toNat]; omega

theorem decode_eq_iff {w : Word} {i : Instr} (h : i.wellFormed = true) : decode w = i ↔ w = encode i := by
  constructor
  · rintro rfl; exact (encode_decode w).symm
  · rintro rfl; exact decode_encode h

end Sys2Proof
end

section
/-! PROOFS. Words under a mask: the rows of the opcode map (spec/30_encoding.md R85). -/

namespace Sys2Proof

/-- Words that agree under a mask agree in every field the mask covers. -/
theorem bits_eq_of_and_eq {w w' m : Word} (h : w &&& m = w' &&& m) {lo len : Nat}
    (hm : bits m lo len = BitVec.allOnes len) : bits w lo len = bits w' lo len := by
  have field := congrArg (bits · lo len) h
  simp only [bits] at hm
  simpa [bits, BitVec.extractLsb'_and, hm] using field

theorem bits_append_bits (w : Word) (lo n m : Nat) :
    bits w (lo + n) m ++ bits w lo n = bits w lo (m + n) := BitVec.extractLsb'_append_extractLsb'_eq_extractLsb' rfl

/-! ### The primary rows -/

theorem and_opcodeMask (w : Word) : w &&& 0xF000 = bits w 12 4 ++ 0#12 := by
  have fields : bits w 12 4 ++ bits w 0 12 = w := (bits_append_bits w 0 12 4).trans BitVec.extractLsb'_eq_self
  calc w &&& 0xF000
    _ = (bits w 12 4 ++ bits w 0 12) &&& (BitVec.allOnes 4 ++ 0#12) := congrArg (· &&& 0xF000) fields.symm
    _ = bits w 12 4 ++ 0#12 := by rw [BitVec.and_append, BitVec.and_allOnes, BitVec.and_zero]

/-- ADD and AND, register form: their row's mask keeps the opcode and bit 5. -/
theorem registerForm_and_mask (op : BitVec 4) (dr sr1 : RegNo) (ign : BitVec 2) (sr2 : RegNo) :
    (op ++ dr ++ sr1 ++ 0b0#1 ++ ign ++ sr2) &&& 0xF020#16 = op ++ 0#3 ++ 0#3 ++ 0b0#1 ++ 0#2 ++ 0#3 := by
  change _ &&& (BitVec.allOnes 4 ++ 0#3 ++ 0#3 ++ 0b1#1 ++ 0#2 ++ 0#3) = _
  iterate 5 rw [BitVec.and_append]
  simp only [BitVec.and_allOnes, BitVec.and_zero, BitVec.zero_and]

/-- ADD and AND, immediate form: see `registerForm_and_mask`. -/
theorem immediateForm_and_mask (op : BitVec 4) (dr sr1 : RegNo) (imm5 : BitVec 5) :
    (op ++ dr ++ sr1 ++ 0b1#1 ++ imm5) &&& 0xF020#16 = op ++ 0#3 ++ 0#3 ++ 0b1#1 ++ 0#5 := by
  change _ &&& (BitVec.allOnes 4 ++ 0#3 ++ 0#3 ++ 0b1#1 ++ 0#5) = _
  iterate 4 rw [BitVec.and_append]
  simp only [BitVec.and_allOnes, BitVec.and_zero, BitVec.and_self]

/-- An instruction's word is one its primary row selects: by its opcode, and by its mode bit in the three families
of two rows. -/
theorem encode_matches_primaryRow (i : Instr) : encode i &&& i.primaryRow.mask = i.primaryRow.value := by
  have op := (and_opcodeMask (encode i)).trans (congrArg (· ++ 0#12) (bits_encode_opcode i))
  cases i with
  | addReg | andReg => exact registerForm_and_mask ..
  | addImm | andImm => exact immediateForm_and_mask ..
  | jsr off11 =>
    change (0b0100#4 ++ 0b1#1 ++ off11) &&& (0b1111#4 ++ 0b1#1 ++ 0#11) = 0x4800
    rw [BitVec.and_append, BitVec.and_zero]; rfl
  | jsrr ignHi base ignLo =>
    change (0b0100#4 ++ 0b0#1 ++ ignHi ++ base ++ ignLo) &&& (0b1111#4 ++ 0b1#1 ++ 0#2 ++ 0#3 ++ 0#6) = 0x4000
    iterate 3 rw [BitVec.and_append, BitVec.and_zero]
    rfl
  | _ => simpa [Instr.primaryRow, Instr.opcode] using op

theorem primaryRow_mem (i : Instr) : i.primaryRow ∈ primaryRows := by
  cases i <;> simp [primaryRows, Instr.primaryRow]

/-- No word can match two rows: their values differ in a bit that both masks keep. -/
theorem primaryRows_disjoint : ∀ r ∈ primaryRows, ∀ r' ∈ primaryRows,
    r.value &&& r'.mask = r'.value &&& r.mask → r = r' := by decide

theorem matches_primaryRow_iff (w : Word) {row : Row} (hr : row ∈ primaryRows) :
    w &&& row.mask = row.value ↔ row = (decode w).primaryRow := by
  have own := encode_matches_primaryRow (decode w)
  rw [encode_decode] at own
  constructor
  · intro h
    refine primaryRows_disjoint _ hr _ (primaryRow_mem (decode w)) ?_
    rw [← h, ← own, BitVec.and_assoc, BitVec.and_assoc, BitVec.and_comm row.mask]
  · rintro rfl
    exact own

/-! ### The service rows -/

theorem decode_eq_decodeTrap {w : Word} (op : bits w 12 4 = 0b1111) : decode w = decodeTrap w := by
  simp [decode, op]

theorem bits_encode_trap_vect (ign : BitVec 4) (v : BitVec 8) : bits (encode (.trap ign v)) 0 8 = v := by
  rw [bits_eq_iff, encode_trap_toNat]; omega

theorem encode_trap_and_serviceMask (ign : BitVec 4) (v : BitVec 8) :
    encode (.trap ign v) &&& 0xF0FF = encode (.trap 0 v) := by
  change (0b1111#4 ++ ign ++ v) &&& (0b1111#4 ++ 0#4 ++ BitVec.allOnes 8) = 0b1111#4 ++ 0#4 ++ v
  iterate 2 rw [BitVec.and_append]
  rw [BitVec.and_zero, BitVec.and_allOnes, BitVec.and_self]

/-- The mask of the service rows selects the TRAPs of one vector. -/
theorem and_serviceMask_iff (w : Word) (v : BitVec 8) :
    w &&& 0xF0FF = encode (.trap 0 v) ↔ ∃ ign, w = encode (.trap ign v) := by
  constructor
  · intro h
    have agree := h.trans (encode_trap_and_serviceMask 0 v).symm
    have op : bits w 12 4 = 0b1111 := (bits_eq_of_and_eq agree rfl).trans (bits_encode_opcode _)
    have vect : bits w 0 8 = v := (bits_eq_of_and_eq agree rfl).trans (bits_encode_trap_vect 0 v)
    exact ⟨bits w 8 4, by rw [← vect, ← encode_decodeTrap, ← decode_eq_decodeTrap op, encode_decode]⟩
  · rintro ⟨ign, rfl⟩
    exact encode_trap_and_serviceMask ign v

/-- A service whose words are the TRAPs of one vector: its row selects exactly the words that decode to it. -/
theorem matches_serviceRow_iff (service : BitVec 4 → Instr) (v : BitVec 8)
    (wf : ∀ ign, (service ign).wellFormed = true) (word : ∀ ign, encode (service ign) = encode (.trap ign v))
    (w : Word) : w &&& 0xF0FF = encode (.trap 0 v) ↔ ∃ ign, decode w = service ign := by
  simp only [and_serviceMask_iff, decode_eq_iff (wf _), word]

end Sys2Proof
end

section
/-! PROOFS. The ignored bits (spec/30_encoding.md R86): per row that has some, words that agree in the row's other
bits decode to instructions that do the same. -/

namespace Sys2Proof.Machine

/-- ADD and AND, register form: bits 4..3 are ignored. -/
theorem exec_decode_registerForm {w w' : Word} (h : w &&& 0xFFE7 = w' &&& 0xFFE7)
    (op : bits w 12 4 = 0b0001 ∨ bits w 12 4 = 0b0101) (mode : bits w 5 1 = 0) :
    exec (decode w) = exec (decode w') := by
  have opcode : bits w 12 4 = bits w' 12 4 := bits_eq_of_and_eq h rfl
  have dr : bits w 9 3 = bits w' 9 3 := bits_eq_of_and_eq h rfl
  have sr1 : bits w 6 3 = bits w' 6 3 := bits_eq_of_and_eq h rfl
  have bit5 : bits w 5 1 = bits w' 5 1 := bits_eq_of_and_eq h rfl
  have sr2 : bits w 0 3 = bits w' 0 3 := bits_eq_of_and_eq h rfl
  obtain op | op := op
  · simp [decode, decodeAdd, op, mode, dr, sr1, sr2, ← opcode, ← bit5]
    rfl
  · simp [decode, decodeAnd, op, mode, dr, sr1, sr2, ← opcode, ← bit5]
    rfl

/-- JSRR: bits 10..9 and 5..0 are ignored. -/
theorem exec_decode_jsrr {w w' : Word} (h : w &&& 0xF9C0 = w' &&& 0xF9C0) (op : bits w 12 4 = 0b0100)
    (mode : bits w 11 1 = 0) : exec (decode w) = exec (decode w') := by
  have opcode : bits w 12 4 = bits w' 12 4 := bits_eq_of_and_eq h rfl
  have bit11 : bits w 11 1 = bits w' 11 1 := bits_eq_of_and_eq h rfl
  have base : bits w 6 3 = bits w' 6 3 := bits_eq_of_and_eq h rfl
  simp [decode, decodeJsr, op, mode, base, ← opcode, ← bit11]
  rfl

/-- NOT: bits 5..0 are ignored. -/
theorem exec_decode_not {w w' : Word} (h : w &&& 0xFFC0 = w' &&& 0xFFC0) (op : bits w 12 4 = 0b1001) :
    exec (decode w) = exec (decode w') := by
  have opcode : bits w 12 4 = bits w' 12 4 := bits_eq_of_and_eq h rfl
  have dr : bits w 9 3 = bits w' 9 3 := bits_eq_of_and_eq h rfl
  have sr : bits w 6 3 = bits w' 6 3 := bits_eq_of_and_eq h rfl
  simp [decode, op, dr, sr, ← opcode]
  rfl

/-- JMP or RET, both jump to the register of the base field (R144). -/
theorem exec_decodeJmp (w : Word) : exec (decodeJmp w) = exec (.jmp 0 (bits w 6 3) 0) := by
  unfold decodeJmp
  split
  next base => rw [base]; rfl
  · rfl

/-- JMP and RET: bits 11..9 and 5..0 are ignored. -/
theorem exec_decode_jmp {w w' : Word} (h : w &&& 0xF1C0 = w' &&& 0xF1C0) (op : bits w 12 4 = 0b1100) :
    exec (decode w) = exec (decode w') := by
  have opcode : bits w 12 4 = bits w' 12 4 := bits_eq_of_and_eq h rfl
  have base : bits w 6 3 = bits w' 6 3 := bits_eq_of_and_eq h rfl
  simp [decode, op, ← opcode, exec_decodeJmp, base]

/-- The services: bits 11..8 are ignored. -/
theorem exec_decode_service {w w' : Word} (h : w &&& 0xF0FF = w' &&& 0xF0FF) (op : bits w 12 4 = 0b1111)
    (service : isServiceVector (bits w 0 8) = true) : exec (decode w) = exec (decode w') := by
  have op' : bits w' 12 4 = 0b1111 := (bits_eq_of_and_eq h rfl).symm.trans op
  have vect : bits w 0 8 = bits w' 0 8 := bits_eq_of_and_eq h rfl
  rw [decode_eq_decodeTrap op, decode_eq_decodeTrap op']
  unfold decodeTrap
  rw [← vect]
  rcases (isServiceVector_iff _).mp service with v | v | v | v | v | v <;> simp only [v] <;> rfl

/-! How `usedBits` and `hasService` read a word, as facts about its fields. -/

theorem opcode_of_toNat {w : Word} {n : Nat} (h : w.toNat / 4096 = n) : bits w 12 4 = BitVec.ofNat 4 n :=
  bits_eq_iff.mpr (by rw [← h]; rfl)

theorem isServiceVector_of_hasService {w : Word} (h : hasService w) : isServiceVector (bits w 0 8) = true := by
  simpa [isServiceVector, bits_toNat, hasService] using h

theorem eq_of_and_allOnes {w w' : Word} (h : w &&& 0xFFFF = w' &&& 0xFFFF) : w = w' :=
  calc w = w &&& 0xFFFF := BitVec.and_allOnes.symm
    _ = w' &&& 0xFFFF := h
    _ = w' := BitVec.and_allOnes

/-- The rows with ignored bits are the lemmas above; in any other row the words are equal. -/
theorem exec_decode_of_usedBits {w w' : Word} (h : w &&& usedBits w = w' &&& usedBits w)
    (service : w.toNat / 4096 = 15 → hasService w) : exec (decode w) = exec (decode w') := by
  unfold usedBits at h
  split at h
  next op =>
    split at h
    next mode => exact exec_decode_registerForm h (.inl (opcode_of_toNat op)) (bits_eq_iff.mpr mode)
    · rw [eq_of_and_allOnes h]
  next op =>
    split at h
    next mode => exact exec_decode_registerForm h (.inr (opcode_of_toNat op)) (bits_eq_iff.mpr mode)
    · rw [eq_of_and_allOnes h]
  next op =>
    split at h
    next mode => exact exec_decode_jsrr h (opcode_of_toNat op) (bits_eq_iff.mpr mode)
    · rw [eq_of_and_allOnes h]
  next op => exact exec_decode_not h (opcode_of_toNat op)
  next op => exact exec_decode_jmp h (opcode_of_toNat op)
  next op => exact exec_decode_service h (opcode_of_toNat op) (isServiceVector_of_hasService (service op))
  · rw [eq_of_and_allOnes h]

end Sys2Proof.Machine
end

section
/-! PROOFS. The statements of spec/30_encoding.md. -/

open Sys2Proof Sys2Proof.Machine

/-- Settles O51: `decode_encode`. -/
theorem decodeOfEncode : Obligations.DecodeOfEncode := fun _ => decode_encode

/-- Settles O49: `exec_decode_of_usedBits` at every state. -/
theorem ignoredBitsPlayNoPart : Obligations.IgnoredBitsPlayNoPart := fun _ _ s h service =>
  congrFun (exec_decode_of_usedBits h service) s

/-- Settles O50: the rows are disjoint and a word matches its own; a service's row is its vector's TRAPs. -/
theorem everyWordHasOneRow : Obligations.EveryWordHasOneRow := fun w =>
  ⟨primaryRow_mem _, fun _ => matches_primaryRow_iff w,
    matches_serviceRow_iff .getc 0x20 (fun _ => rfl) (fun _ => rfl) w,
    matches_serviceRow_iff .out 0x21 (fun _ => rfl) (fun _ => rfl) w,
    matches_serviceRow_iff .puts 0x22 (fun _ => rfl) (fun _ => rfl) w,
    matches_serviceRow_iff .inChar 0x23 (fun _ => rfl) (fun _ => rfl) w,
    matches_serviceRow_iff .putsp 0x24 (fun _ => rfl) (fun _ => rfl) w,
    matches_serviceRow_iff .halt 0x25 (fun _ => rfl) (fun _ => rfl) w⟩

/-- Settles O52: `decode_wellFormed` and `encode_decode`. -/
theorem encodeOfDecode : Obligations.EncodeOfDecode := fun w => ⟨decode_wellFormed w, encode_decode w⟩

/-- Settles O53, by evaluating the decoder on the eight words. -/
theorem specWordsDecode : Obligations.SpecWordsDecode := by
  unfold Obligations.SpecWordsDecode
  decide
end

section
/-! PROOFS. The operate instructions: what a write to a destination register changes, and what the
immediate is as a signed number and bit by bit (spec/40_operate.md R110 to R115). -/

namespace Sys2Proof.Machine

/-- What the operate instructions share around their results: the flags follow DR, and the rest is as before (R27,
R115). -/
theorem writeDest_flags_frame (s : State) (dr : RegNo) (v : Word) :
    CondOf ((s.writeDest dr v).readReg dr) (s.writeDest dr v).cond ∧ (s.writeDest dr v).pc = s.pc ∧
      OnlyRegsPcCond s (s.writeDest dr v) [dr] := by
  obtain ⟨regs, mem, run, phase, kbd, conOut⟩ := onlyRegsPcCond_writeReg s dr v
  exact ⟨condOf_writeDest s dr v, rfl, regs, mem, run, phase, kbd, conOut⟩

theorem writeDest_readReg_same (s : State) (dr : RegNo) (v : Word) :
    (s.writeDest dr v).readReg dr = v := by simp

/-- Adding the immediate adds its signed value, modulo 2^16 (R111). -/
theorem add_immOperand_toNat (v : Word) (imm5 : BitVec 5) :
    ((v + immOperand imm5).toNat : Int) = (v.toNat + imm5.toInt) % 2 ^ 16 := by
  rw [BitVec.toNat_add, Int.natCast_emod, Int.natCast_add, immOperand, sext_toNat]
  exact Int.add_emod_emod ..

/-- Bit 4 of the immediate fills the bits above it (R113). -/
theorem immOperand_getLsbD (imm5 : BitVec 5) {i : Nat} (hi : i < 16) :
    (immOperand imm5).getLsbD i = imm5.getLsbD (min i 4) := by
  rw [immOperand, sext, BitVec.getLsbD_signExtend, BitVec.msb_eq_getLsbD_last]
  split
  next low => simp [hi, show min i 4 = i by omega]
  next high => simp [hi, show min i 4 = 4 by omega]

end Sys2Proof.Machine
end

section
/-! PROOFS. The statements of spec/40_operate.md. -/

open Sys2Proof Sys2Proof.Machine

/-- Settles O10: DR receives a sum of words, which wraps modulo 2^16. -/
theorem addRegisterSums : Obligations.AddRegisterSums := fun dr sr1 ign sr2 s =>
  ⟨decode_encode (i := .addReg dr sr1 ign sr2) rfl, _, rfl, by
    rw [writeDest_readReg_same, BitVec.toNat_add], writeDest_flags_frame s dr _⟩

/-- Settles O11, by `add_immOperand_toNat`. -/
theorem addImmediateSums : Obligations.AddImmediateSums := fun dr sr1 imm5 s =>
  ⟨decode_encode (i := .addImm dr sr1 imm5) rfl, _, rfl, by
    rw [writeDest_readReg_same, add_immOperand_toNat], writeDest_flags_frame s dr _⟩

/-- Settles O12: DR receives the conjunction of the two words. -/
theorem andRegisterMeets : Obligations.AndRegisterMeets := fun dr sr1 ign sr2 s =>
  ⟨decode_encode (i := .andReg dr sr1 ign sr2) rfl, _, rfl, fun i => by
    rw [writeDest_readReg_same, BitVec.getLsbD_and], writeDest_flags_frame s dr _⟩

/-- Settles O13: the conjunction again, with the bits of the immediate from `immOperand_getLsbD`. -/
theorem andImmediateMeets : Obligations.AndImmediateMeets := fun dr sr1 imm5 s =>
  ⟨decode_encode (i := .andImm dr sr1 imm5) rfl, _, rfl, fun i hi => by
    rw [writeDest_readReg_same, BitVec.getLsbD_and, immOperand_getLsbD imm5 hi], writeDest_flags_frame s dr _⟩

/-- Settles O14: complementing a word subtracts it from the largest one. -/
theorem notComplements : Obligations.NotComplements := fun dr sr ign s =>
  ⟨decode_encode (i := .not dr sr ign) rfl, _, rfl, by
    rw [writeDest_readReg_same, BitVec.toNat_not], writeDest_flags_frame s dr _⟩
end

section
/-! PROOFS. The load and store instructions: effective addresses as signed sums, and what a load does of registers,
flags, memory and the keyboard queue (spec/41_load_store.md R120 to R127). -/

namespace Sys2Proof.Machine

/-! ### Effective addresses (R127) -/

/-- Adding a sign-extended field adds its signed value, modulo 2^16 (R6, R7). -/
theorem add_sext_toNat {n : Nat} (v : Word) (field : BitVec n) :
    ((v + sext field).toNat : Int) = (v.toNat + field.toInt) % 2 ^ 16 := by
  rw [BitVec.toNat_add, Int.natCast_emod, Int.natCast_add, sext_toNat]
  exact Int.add_emod_emod ..

theorem pcRel9_toNat (s : State) (off9 : BitVec 9) :
    ((s.pcRel9 off9).toNat : Int) = (s.pc.toNat + off9.toInt) % 2 ^ 16 := add_sext_toNat s.pc off9

theorem baseOff_toNat (s : State) (base : RegNo) (off6 : BitVec 6) :
    ((s.baseOff base off6).toNat : Int) = ((s.readReg base).toNat + off6.toInt) % 2 ^ 16 :=
  add_sext_toNat (s.readReg base) off6

/-! ### Frames -/

/-- A change of no register, then a change of some: the frame of the two is the frame of the second. -/
theorem OnlyRegsCondMemKbd.trans {s u t : State} {rs : List RegNo} (h : OnlyRegsCondMemKbd s u [])
    (h' : OnlyRegsCondMemKbd u t rs) : OnlyRegsCondMemKbd s t rs where
  regs r hr := (h'.regs r hr).trans (h.regs r (by simp))
  pc := h'.pc.trans h.pc
  run := h'.run.trans h.run
  phase := h'.phase.trans h.phase
  conOut := h'.conOut.trans h.conOut

theorem onlyRegsCondMemKbd_writeDest (s : State) (dr : RegNo) (v : Word) :
    OnlyRegsCondMemKbd s (s.writeDest dr v) [dr] := by
  obtain ⟨-, pc, only⟩ := writeDest_flags_frame s dr v
  exact ⟨only.regs, pc, only.run, only.phase, only.conOut⟩

theorem OnlyStore.onlyRegsCondMemKbd {s t : State} {a v : Word} (h : OnlyStore s t a v) :
    OnlyRegsCondMemKbd s t [] := ⟨fun r _ => h.regs r, h.pc, h.run, h.phase, h.conOut⟩

/-! ### Loads (R53, R55, R127) -/

/-- A write to a destination register touches neither memory nor the keyboard queue a read left. -/
theorem MemReadOf.writeDest {s u : State} {a v : Word} (h : MemReadOf s a v u) (dr : RegNo) (w : Word) :
    MemReadOf s a v (u.writeDest dr w) := ⟨h.plain, h.notReady, h.ready⟩

theorem onlyRegsCondMemKbd_loadInto (s : State) (dr : RegNo) (a : Word) :
    OnlyRegsCondMemKbd s (s.loadInto dr a) [dr] :=
  (onlyRegsCondMemKbd_afterRead s a).trans (onlyRegsCondMemKbd_writeDest _ dr _)

/-- What every load does: DR receives the word of one `MemRead`, and the flags follow it. -/
theorem loadInto_reads (s : State) (dr : RegNo) (a : Word) :
    MemReadOf s a ((s.loadInto dr a).readReg dr) (s.loadInto dr a) ∧
      CondOf ((s.loadInto dr a).readReg dr) (s.loadInto dr a).cond ∧
      OnlyRegsCondMemKbd s (s.loadInto dr a) [dr] := by
  have loaded : (s.loadInto dr a).readReg dr = s.readValue a := writeDest_readReg_same _ dr _
  refine ⟨?_, condOf_writeDest _ dr _, onlyRegsCondMemKbd_loadInto s dr a⟩
  rw [loaded]
  exact (memReadOf_afterRead s a).writeDest dr _

end Sys2Proof.Machine
end

section
/-! PROOFS. The statements of spec/41_load_store.md. -/

open Sys2Proof Sys2Proof.Machine

/-- Settles O15: LD is the load at `pcRel9`. -/
theorem ldLoadsPcRelative : Obligations.LdLoadsPcRelative := fun dr off9 s =>
  ⟨decode_encode (i := .ld dr off9) rfl, pcRel9_toNat s off9, _, rfl, loadInto_reads s dr _⟩

/-- Settles O16: ST is the store at `pcRel9`. -/
theorem stStoresPcRelative : Obligations.StStoresPcRelative := fun sr off9 s =>
  ⟨decode_encode (i := .st sr off9) rfl, pcRel9_toNat s off9, _, rfl, onlyStore_memWrite s _ _⟩

/-- Settles O17: LDR is the load at `baseOff` of the state before DR is written. -/
theorem ldrLoadsBaseOffset : Obligations.LdrLoadsBaseOffset := fun dr base off6 s =>
  ⟨decode_encode (i := .ldr dr base off6) rfl, baseOff_toNat s base off6, _, rfl, loadInto_reads s dr _⟩

/-- Settles O18: STR is the store at `baseOff`. -/
theorem strStoresBaseOffset : Obligations.StrStoresBaseOffset := fun sr base off6 s =>
  ⟨decode_encode (i := .str sr base off6) rfl, baseOff_toNat s base off6, _, rfl, onlyStore_memWrite s _ _⟩

/-- Settles O19: the pointer read leaves the state that the load at the pointer starts from. -/
theorem ldiLoadsThroughPointer : Obligations.LdiLoadsThroughPointer := by
  intro dr off9 s
  let pa := s.pcRel9 off9
  obtain ⟨reads, flags, frame⟩ := loadInto_reads (s.afterRead pa) dr (s.readValue pa)
  exact ⟨decode_encode (i := .ldi dr off9) rfl, pcRel9_toNat s off9, s.readValue pa, s.afterRead pa, _, rfl,
    memReadOf_afterRead s pa, reads, flags, (onlyRegsCondMemKbd_afterRead s pa).trans frame⟩

/-- Settles O20: the store through the pointer, from the state the pointer read leaves. -/
theorem stiStoresThroughPointer : Obligations.StiStoresThroughPointer := by
  intro sr off9 s
  let pa := s.pcRel9 off9
  have store := onlyStore_memWrite (s.afterRead pa) (s.readValue pa) (s.readReg sr)
  exact ⟨decode_encode (i := .sti sr off9) rfl, pcRel9_toNat s off9, s.afterRead pa, _, rfl,
    memReadOf_afterRead s pa, store.stored, store.mem, store.kbd, store.cond.trans (s.afterRead_cond pa),
    (onlyRegsCondMemKbd_afterRead s pa).trans store.onlyRegsCondMemKbd⟩

/-- Settles O21: LEA writes `pcRel9` itself to DR. -/
theorem leaLoadsAddress : Obligations.LeaLoadsAddress := fun dr off9 s =>
  ⟨decode_encode (i := .lea dr off9) rfl, _, rfl, by
    rw [writeDest_readReg_same, pcRel9_toNat], writeDest_flags_frame s dr _⟩
end

section
/-! PROOFS. The control transfers: what a write of `pc` leaves, where a branch goes, and the words that two
constructors share (spec/42_control.md R140 to R145). -/

namespace Sys2Proof.Machine

/-! ### Words of BR and JMP, by the field that names the alias row (R91) -/

theorem decode_encode_br (nzp : BitVec 3) (off9 : BitVec 9) :
    decode (encode (.br nzp off9)) = if nzp = 0 then .nop off9 else .br nzp off9 := by
  split
  next mask => subst mask; exact decode_encode (i := .nop off9) rfl
  next mask => exact decode_encode (by simpa [Instr.wellFormed] using mask)

theorem decode_encode_jmp (ignHi : BitVec 3) (base : RegNo) (ignLo : BitVec 6) :
    decode (encode (.jmp ignHi base ignLo)) =
      if base = 7 then .ret ignHi ignLo else .jmp ignHi base ignLo := by
  split
  next link => subst link; exact decode_encode (i := .ret ignHi ignLo) rfl
  next other => exact decode_encode (by simpa [Instr.wellFormed] using other)

/-! ### Frames (R145) -/

/-- The frame leaves `pc` free. -/
theorem OnlyRegsPcCond.setPc {s t : State} {rs : List RegNo} (h : OnlyRegsPcCond s t rs) (p : Word) :
    OnlyRegsPcCond s (t.setPc p) rs := ⟨h.regs, h.mem, h.run, h.phase, h.kbd, h.conOut⟩

theorem onlyRegsPcCond_refl (s : State) : OnlyRegsPcCond s s [] :=
  ⟨fun _ _ => rfl, fun _ => rfl, rfl, rfl, rfl, rfl⟩

theorem onlyRegsPcCond_branch (s : State) (nzp : BitVec 3) (off9 : BitVec 9) :
    OnlyRegsPcCond s (s.branch nzp off9) [] := by
  obtain ⟨p, e⟩ := s.branch_eq_setPc nzp off9
  exact e ▸ (onlyRegsPcCond_refl s).setPc p

/-! ### Where a transfer goes -/

theorem brTaken_iff (s : State) (nzp : BitVec 3) : s.brTaken nzp = true ↔ nzp &&& s.cond ≠ 0 := by
  simp [State.brTaken]

theorem branch_pc_of_taken {s : State} {nzp : BitVec 3} (h : nzp &&& s.cond ≠ 0) (off9 : BitVec 9) :
    ((s.branch nzp off9).pc.toNat : Int) = (s.pc.toNat + off9.toInt) % 2 ^ 16 := by
  rw [State.branch, if_pos ((brTaken_iff s nzp).mpr h), State.setPc_pc, pcRel9_toNat]

theorem branch_eq_of_not_taken {s : State} {nzp : BitVec 3} (h : nzp &&& s.cond = 0) (off9 : BitVec 9) :
    s.branch nzp off9 = s := if_neg fun taken => (brTaken_iff s nzp).mp taken h

theorem pcRel11_toNat (s : State) (off11 : BitVec 11) :
    ((s.pcRel11 off11).toNat : Int) = (s.pc.toNat + off11.toInt) % 2 ^ 16 := add_sext_toNat s.pc off11

/-- JSRR's base after the link write: R7 is the return address already (R143). -/
theorem link_readReg (s : State) (r : RegNo) :
    s.link.readReg r = if r = 7 then s.pc else s.readReg r :=
  (s.writeReg_readReg 7 s.pc r).trans (if_congr eq_comm rfl rfl)

end Sys2Proof.Machine
end

section
/-! PROOFS. The statements of spec/42_control.md. -/

open Sys2Proof Sys2Proof.Machine

/-- Settles O22, by whether the mask meets `cond`: 111 meets every one-hot value, 000 meets none. -/
theorem branchFollowsFlags : Obligations.BranchFollowsFlags := by
  intro nzp off9 s
  refine ⟨decode_encode_br nzp off9, _, _, rfl, rfl, fun met => branch_pc_of_taken met off9,
    fun unmet => congrArg State.pc (branch_eq_of_not_taken unmet off9), fun mask => ?_,
    fun mask legal => branch_pc_of_taken ?_ off9, s.branch_cond nzp off9, onlyRegsPcCond_branch s nzp off9,
    congrArg State.pc (s.branch_zero off9), s.branch_cond 0 off9, onlyRegsPcCond_branch s 0 off9⟩
  · rw [mask, s.branch_zero]
  · obtain c | c | c := legal <;> rw [mask, c] <;> decide

/-- Settles O23: JMP and RET both write `pc` alone. -/
theorem jumpGoesToRegister : Obligations.JumpGoesToRegister := fun ignHi base ignLo s =>
  ⟨decode_encode_jmp ignHi base ignLo, _, _, rfl, rfl, rfl, rfl, (onlyRegsPcCond_refl s).setPc _,
    rfl, rfl, (onlyRegsPcCond_refl s).setPc _⟩

/-- Settles O24: the link write, then a `pc` relative to the one it saved. -/
theorem jsrLinksAndBranches : Obligations.JsrLinksAndBranches := fun off11 s =>
  ⟨decode_encode (i := .jsr off11) rfl, _, rfl, s.writeReg_readReg_same 7 s.pc, pcRel11_toNat s off11,
    rfl, (onlyRegsPcCond_writeReg s 7 s.pc).setPc _⟩

/-- Settles O25: the base is read as the link write left it (`link_readReg`). -/
theorem jsrrLinksThenReadsBase : Obligations.JsrrLinksThenReadsBase := fun ignHi base ignLo s =>
  ⟨decode_encode (i := .jsrr ignHi base ignLo) rfl, _, rfl, s.writeReg_readReg_same 7 s.pc,
    link_readReg s base, rfl, (onlyRegsPcCond_writeReg s 7 s.pc).setPc _⟩
end

section
/-! PROOFS. The trap services and the opcodes that always fault: the string walk as the spec's unbounded loop, and what
every TRAP writes, whatever its vector (spec/43_trap_and_system.md R150 to R161). -/

namespace Sys2Proof.Machine

/-! ### Characters (R152, R157) -/

theorem lowByte_eq_lowChar (w : Word) : lowByte w = lowChar w := by
  simp [← BitVec.toNat_inj, lowByte, lowChar]

theorem highByte_eq_ofNat (w : Word) : highByte w = BitVec.ofNat 8 (w.toNat / 256) := by
  simp [← BitVec.toNat_inj, highByte, Nat.shiftRight_eq_div_pow]

theorem highByte_eq_zero_iff (w : Word) : highByte w = 0 ↔ w.toNat / 256 = 0 := by
  simp [highByte_eq_ofNat, ← BitVec.toNat_inj]
  omega

theorem putsBytes_eq : putsBytes = fun w => [lowChar w] := by
  funext w
  rw [putsBytes, lowByte_eq_lowChar]

theorem putspBytes_eq : putspBytes = packedChars := by
  funext w
  rw [putspBytes, packedChars, lowByte_eq_lowChar]
  simp only [highByte_eq_zero_iff]
  split
  · rfl
  · rw [highByte_eq_ofNat]

/-! ### The console (R33) -/

theorem State.emit_nil (s : State) : s.emit [] = s := by
  rw [State.emit, List.append_nil]

theorem State.emit_emit (s : State) (bs cs : List Byte) : (s.emit bs).emit cs = s.emit (bs ++ cs) := by
  simp [State.emit]

/-! ### The string walk and the loop of R155 -/

/-- An update that no read sees neither turns the loop nor is lost in it. -/
theorem StringLoop.of_update {f : Word → List Byte} {g : State → State}
    (hv : ∀ s a, (g s).readValue a = s.readValue a) (ha : ∀ s a, (g s).afterRead a = g (s.afterRead a))
    {s t : State} {a : Word} {bs : List Byte} (h : StringLoop f (g s) a bs t) :
    ∃ u, StringLoop f s a bs u ∧ t = g u := by
  generalize hw : g s = w at h
  induction h generalizing s with
  | @stop _ a ends =>
    subst hw
    exact ⟨s.afterRead a, .stop (hv s a ▸ ends), ha s a⟩
  | @more _ _ a _ goes _ ih =>
    subst hw
    obtain ⟨u, rest, e⟩ := ih (ha s a).symm
    rw [hv] at goes ⊢
    exact ⟨u, .more goes rest, e⟩

/-- The reads of the loop leave the console alone; what it writes is its list of bytes. -/
theorem StringLoop.conOut {f : Word → List Byte} {s u : State} {a : Word} {bs : List Byte}
    (h : StringLoop f s a bs u) : u.conOut = s.conOut := by
  induction h with
  | stop => exact State.afterRead_conOut ..
  | more _ _ ih => exact ih.trans (State.afterRead_conOut ..)

/-- A walk that ends has gone the way of the loop, and what it wrote is on the console. -/
theorem stringWalk_loop (f : Word → List Byte) (n : Nat) :
    ∀ {a : Word} {s t : State}, stringWalk f n a s = some t →
      ∃ bs u, StringLoop f s a bs u ∧ t = u.emit bs := by
  induction n with
  | zero => intro a s t h; cases h
  | succ n ih =>
    intro a s t h
    rw [stringWalk_succ] at h
    split at h
    next ends =>
      cases h
      exact ⟨[], _, .stop ends, (State.emit_nil _).symm⟩
    next goes =>
      obtain ⟨bs, v, rest, rfl⟩ := ih h
      obtain ⟨u, rest', rfl⟩ := rest.of_update (g := (State.emit · _)) (fun s a => s.readValue_emit _ a)
        (fun s a => s.afterRead_emit _ a)
      exact ⟨_, u, .more goes rest', u.emit_emit _ bs⟩

/-- The link write of TRAP leaves the services' argument (R22, R150). -/
theorem trapEntry_argReg (s : State) : s.trapEntry.readReg Config.argReg = s.readReg 0 :=
  s.writeReg_readReg_other s.pc (by decide)

/-- PUTS and PUTSP complete and do what the loop does from R0: the link write of their TRAP moves no string. -/
theorem serviceString_trapEntry_loop (f : Word → List Byte) (s : State) :
    ∃ t bs u, serviceString f s.trapEntry = .next t ∧ StringLoop f s (s.readReg 0) bs u ∧
      t.conOut = s.conOut ++ bs ∧ (∀ a, t.peek a = u.peek a) ∧ t.kbd = u.kbd ∧ TrapFrame s t [] ∧
      t.cond = s.cond ∧ t.run = s.run ∧ t.trapPhase = s.trapPhase := by
  obtain ⟨t, ht, frame⟩ := serviceString_next f s.trapEntry
  obtain ⟨bs, v, walked, rfl⟩ := stringWalk_loop f _ (serviceString_eq_next.mp ht)
  rw [trapEntry_argReg] at walked
  obtain ⟨u, loop, rfl⟩ := walked.of_update (g := (State.writeReg · 7 s.pc))
    (fun s a => s.readValue_writeReg _ _ a) (fun s a => s.afterRead_writeReg _ _ a)
  exact ⟨_, bs, u, ht, loop, congrArg (· ++ bs) loop.conOut, fun _ => rfl, rfl,
    trapFrame_of_regs frame.regs frame.pc, frame.cond, frame.run, frame.phase⟩

/-- On a string clear of 0xFE00 the loop writes its words' bytes, and its reads change nothing. -/
theorem StringLoop.of_stringAt {f : Word → List Byte} {s u : State} {bs : List Byte} {ws : List Word} :
    ∀ {a : Word}, StringAt s a ws → StringLoop f s a bs u → bs = ws.flatMap f ∧ u = s := by
  induction ws generalizing bs with
  | nil =>
    intro a ⟨clear, ends⟩ loop
    rw [← s.readValue_plain clear] at ends
    cases loop with
    | stop => exact ⟨rfl, s.afterRead_plain clear⟩
    | more goes => exact absurd ends goes
  | cons w ws ih =>
    intro a ⟨clear, nonzero, word, rest⟩ loop
    rw [← s.readValue_plain clear] at word
    cases loop with
    | stop ends => exact absurd (word.symm.trans ends) nonzero
    | more _ loop =>
      rw [s.afterRead_plain clear] at loop
      obtain ⟨rfl, rfl⟩ := ih rest loop
      exact ⟨by rw [word, List.flatMap_cons], rfl⟩

/-- A string clear of 0xFE00 is printed, and memory and the keyboard queue are as before. -/
theorem serviceString_prints {f : Word → List Byte} {s : State} {ws : List Word}
    (h : StringAt s (s.readReg 0) ws) : ∃ t, serviceString f s.trapEntry = .next t ∧
      t.conOut = s.conOut ++ ws.flatMap f ∧ (∀ a, t.peek a = s.peek a) ∧ t.kbd = s.kbd := by
  obtain ⟨t, bs, u, ht, loop, out, mem, kbd, -⟩ := serviceString_trapEntry_loop f s
  obtain ⟨rfl, rfl⟩ := StringLoop.of_stringAt h loop
  exact ⟨t, ht, out, mem, kbd⟩

/-! ### Every TRAP (R150, R151) -/

/-- A TRAP does what a well-formed instruction of its row does: one that links, has no DR, and takes a byte only where
the vector is that of GETC or IN (R91, log 7). -/
theorem exec_trap_eq_wellFormed (ign : BitVec 4) (vect : BitVec 8) :
    ∃ j : Instr, j.wellFormed = true ∧ exec (.trap ign vect) = exec j ∧ j.links = true ∧ j.transfers = false ∧
      j.destReg = none ∧ (vect ≠ 0x20 → vect ≠ 0x23 → j.readsKey = false) := by
  cases service : isServiceVector vect with
  | false => exact ⟨.trap ign vect, by simp [Instr.wellFormed, service], rfl, rfl, rfl, rfl, fun _ _ => rfl⟩
  | true =>
    obtain rfl | rfl | rfl | rfl | rfl | rfl := (isServiceVector_iff vect).mp service
    · exact ⟨.getc ign, rfl, rfl, rfl, rfl, rfl, fun h => absurd rfl h⟩
    · exact ⟨.out ign, rfl, rfl, rfl, rfl, rfl, fun _ _ => rfl⟩
    · exact ⟨.puts ign, rfl, exec_trap_puts ign, rfl, rfl, rfl, fun _ _ => rfl⟩
    · exact ⟨.inChar ign, rfl, rfl, rfl, rfl, rfl, fun _ h => absurd rfl h⟩
    · exact ⟨.putsp ign, rfl, exec_trap_putsp ign, rfl, rfl, rfl, fun _ _ => rfl⟩
    · exact ⟨.halt ign, rfl, rfl, rfl, rfl, rfl, fun _ _ => rfl⟩

/-- Every TRAP completes, links, and writes no other register but R0, which with the flags only GETC and IN write. -/
theorem exec_trap_frame (ign : BitVec 4) (vect : BitVec 8) (s : State) :
    ∃ t, exec (.trap ign vect) s = .next t ∧ t.readReg 7 = s.pc ∧ t.pc = s.pc ∧
      (∀ r, r ≠ 7 → r ≠ 0 → t.readReg r = s.readReg r) ∧
      (vect ≠ 0x20 → vect ≠ 0x23 → t.readReg 0 = s.readReg 0 ∧ t.cond = s.cond) := by
  obtain ⟨j, hw, e, links, stays, noDest, noKey⟩ := exec_trap_eq_wellFormed ign vect
  obtain ⟨t, ht⟩ := exec_next hw s
  have notDest (r : RegNo) : j.destReg ≠ some r := by simp [noDest]
  refine ⟨t, e ▸ ht, exec_link hw links ht, exec_pc_frame hw stays ht,
    fun r h7 h0 => exec_readReg_frame hw ht (notDest r) (fun _ => h7) fun _ hr => absurd hr h0,
    fun notGetc notIn => ⟨?_, ?_⟩⟩
  · exact exec_readReg_frame hw ht (notDest 0) (fun _ => by decide) (by simp [noKey notGetc notIn])
  · exact exec_cond_frame hw noDest (by simp [noKey notGetc notIn]) ht

theorem trap_wellFormed_of_unknown {vect : BitVec 8} (h : vect.toNat < 0x20 ∨ 0x25 < vect.toNat)
    (ign : BitVec 4) : (Instr.trap ign vect).wellFormed = true := by
  simp [Instr.wellFormed, isServiceVector]
  omega

theorem onlyRun_setRun (s : State) (r : Run) : OnlyRun s (s.setRun r) :=
  ⟨fun _ => rfl, rfl, rfl, fun _ => rfl, rfl, rfl, rfl⟩

end Sys2Proof.Machine
end

section
/-! PROOFS. The statements of spec/43_trap_and_system.md on TRAP, its services and the faulting opcodes. -/

open Sys2Proof Sys2Proof.Machine

/-- Settles O26: each service's word and term, `exec_trap_frame` for every vector, and the fault of the others. -/
theorem trapSelectsService : Obligations.TrapSelectsService := by
  intro ign s
  refine ⟨⟨decode_encode (i := .getc ign) rfl, rfl⟩, ⟨decode_encode (i := .out ign) rfl, rfl⟩,
    ⟨decode_encode (i := .puts ign) rfl, congrFun (exec_trap_puts ign) s⟩,
    ⟨decode_encode (i := .inChar ign) rfl, rfl⟩,
    ⟨decode_encode (i := .putsp ign) rfl, congrFun (exec_trap_putsp ign) s⟩,
    ⟨decode_encode (i := .halt ign) rfl, rfl⟩, fun vect => exec_trap_frame ign vect s, fun vect unknown => ?_⟩
  have hw := trap_wellFormed_of_unknown unknown ign
  exact ⟨decode_encode (i := .trap ign vect) hw, _, exec_trap_unknown hw s, rfl, trapFrame_of_regs rfl rfl, rfl,
    fun _ => rfl, rfl, rfl, rfl⟩

/-- Settles O30: `serviceString_trapEntry_loop` with one character a word. -/
theorem putsRunsItsLoop : Obligations.PutsRunsItsLoop := fun _ s =>
  putsBytes_eq ▸ serviceString_trapEntry_loop putsBytes s

/-- Settles O31: `serviceString_trapEntry_loop` with the packed characters of a word. -/
theorem putspRunsItsLoop : Obligations.PutspRunsItsLoop := fun _ s =>
  putspBytes_eq ▸ serviceString_trapEntry_loop putspBytes s

/-- Settles O32: `serviceString_prints` for both services. -/
theorem plainStringIsPrinted : Obligations.PlainStringIsPrinted := by
  intro ign s ws h
  refine ⟨?_, putspBytes_eq ▸ serviceString_prints (f := putspBytes) h⟩
  have oneEach : ws.map lowChar = ws.flatMap putsBytes := by
    rw [putsBytes_eq]; exact (List.flatMap_pure_eq_map lowChar ws).symm
  exact oneEach ▸ serviceString_prints h

/-- Settles O29: OUT emits the low byte of R0, which TRAP entry has not touched. -/
theorem outWritesLowByte : Obligations.OutWritesLowByte := by
  intro ign s
  have byte : lowByte (s.trapEntry.readReg Config.argReg) = lowChar (s.readReg 0) := by
    rw [trapEntry_argReg, lowByte_eq_lowChar]
  exact ⟨_, rfl, congrArg (s.conOut ++ [·]) byte, trapFrame_of_regs rfl rfl, rfl, rfl, fun _ => rfl, rfl, rfl⟩

/-- Settles O33: HALT's message and run state, and by `step_next` no step from HALTED. -/
theorem haltPrintsAndStops : Obligations.HaltPrintsAndStops := by
  intro ign s
  refine ⟨_, rfl, rfl, rfl, trapFrame_of_regs rfl rfl, rfl, rfl, fun _ => rfl, rfl, fun u hu => ?_⟩
  have running : Run.halted = .running := (step_next hu).1
  cases running

/-- Settles O34: RTI's word keeps its ignored bits, and the fault writes `run` alone. -/
theorem rtiFaults : Obligations.RtiFaults := fun ign s =>
  ⟨decode_encode (i := .rti ign) rfl, _, rfl, rfl, onlyRun_setRun s _⟩

/-- Settles O35: likewise for the reserved opcode. -/
theorem reservedOpcodeFaults : Obligations.ReservedOpcodeFaults := fun ign s =>
  ⟨decode_encode (i := .res ign) rfl, _, rfl, rfl, onlyRun_setRun s _⟩
end

section
/-! PROOFS. The run state an instruction leaves, and what the bits of its word say of it (spec/60_exceptions.md R180,
R181, R183). -/

namespace Sys2Proof.Machine

/-! ### By instruction -/

/-- The run state a well-formed instruction leaves where the core is RUNNING; a fault records the instruction's word
(R158, R180). -/
def runAfter (i : Instr) : Run :=
  match i with
  | .rti _ => .faulted .rtiUnsupported (encode i)
  | .res _ => .faulted .reservedOpcode (encode i)
  | .trap .. => .faulted .unknownTrapVector (encode i)
  | .halt _ => .halted
  | .br .. | .addReg .. | .addImm .. | .ld .. | .st .. | .jsr .. | .jsrr .. | .andReg .. | .andImm .. | .ldr ..
  | .str .. | .not .. | .ldi .. | .sti .. | .jmp .. | .lea .. | .getc .. | .out .. | .puts .. | .inChar ..
  | .putsp .. | .ret .. | .nop .. => .running

@[simp] theorem State.branch_run (s : State) (nzp : BitVec 3) (off9 : BitVec 9) :
    (s.branch nzp off9).run = s.run := by
  obtain ⟨p, e⟩ := s.branch_eq_setPc nzp off9
  rw [e, State.setPc_run]

/-- Only a fault and HALT write `run`; the byte GETC and IN take or wait for and the string walks leave it. -/
theorem exec_run {i : Instr} (hw : i.wellFormed = true) {s t : State} (hr : s.run = .running)
    (ht : exec i s = .next t) : t.run = runAfter i := by
  cases i with
  | rti | res | halt => cases ht; rfl
  | trap => rw [exec_trap_unknown hw] at ht; cases ht; rfl
  | br | nop | ld | ldr | ldi | sti => cases ht; simp [runAfter, hr]
  | getc | inChar =>
    obtain ⟨bs, -, ⟨-, p, rfl⟩ | ⟨b, q, -, rfl⟩⟩ := exec_readsKey rfl ht
    · exact hr
    · exact hr
  | puts | putsp => exact (WalkFrame.of_serviceString ht).run.trans hr
  | _ => cases ht; exact hr

/-- A held service ends without a write of `run` (R153, R156). -/
theorem step_held_run {s t : State} (ht : step s = .next t) (held : s.trapPhase ≠ .none) : t.run = .running := by
  obtain ⟨hr, ⟨hp, -⟩ | ⟨b, q, -, ⟨-, rfl⟩ | ⟨-, rfl⟩⟩⟩ := step_next ht
  · exact absurd hp held
  · exact hr
  · exact hr

/-! ### By word (R85, R87) -/

theorem not_isServiceVector_of_not_hasService {w : Word} (h : ¬ hasService w) :
    isServiceVector (bits w 0 8) = false := by
  simpa [isServiceVector, bits_toNat, hasService] using h

theorem decode_rti {w : Word} (op : w.toNat / 4096 = 8) : decode w = .rti (bits w 0 12) := by
  simp [decode, opcode_of_toNat op]

theorem decode_res {w : Word} (op : w.toNat / 4096 = 13) : decode w = .res (bits w 0 12) := by
  simp [decode, opcode_of_toNat op]

theorem decode_trap_unknown {w : Word} (op : w.toNat / 4096 = 15) (unknown : ¬ hasService w) :
    decode w = .trap (bits w 8 4) (bits w 0 8) :=
  (decode_eq_decodeTrap (opcode_of_toNat op)).trans
    (decodeTrap_unknown (not_isServiceVector_of_not_hasService unknown))

theorem decode_halt {w : Word} (op : w.toNat / 4096 = 15) (vect : w.toNat % 256 = 0x25) :
    decode w = .halt (bits w 8 4) := by
  have v : bits w 0 8 = 0x25 := bits_eq_iff.mpr (by simpa using vect)
  simp [decode_eq_decodeTrap (opcode_of_toNat op), decodeTrap, v]

/-- The words of RTI, RES, an unknown TRAP and HALT are those the hypotheses exclude; the rest leave RUNNING. -/
theorem runAfter_eq_running {i : Instr} (hw : i.wellFormed = true) (notRti : (encode i).toNat / 4096 ≠ 8)
    (notRes : (encode i).toNat / 4096 ≠ 13)
    (service : (encode i).toNat / 4096 = 15 → hasService (encode i) ∧ (encode i).toNat % 256 ≠ 0x25) :
    runAfter i = .running := by
  cases i with
  | rti ign => rw [encode_rti_toNat] at notRti; omega
  | res ign => rw [encode_res_toNat] at notRes; omega
  | trap ign vect =>
    have unknown : isServiceVector vect = false := by simpa [Instr.wellFormed] using hw
    have known := isServiceVector_of_hasService (service (by rw [encode_trap_toNat]; omega)).1
    rw [bits_encode_trap_vect, unknown] at known
    cases known
  | halt ign => rw [encode_halt_toNat] at service; omega
  | _ => rfl

end Sys2Proof.Machine
end

section
/-! PROOFS. The statement of spec/60_exceptions.md. -/

open Sys2Proof Sys2Proof.Machine

/-- Settles O39: `exec_run` on the instruction the word's bits select, and `step_held_run`. -/
theorem runStateAfterEveryWord : Obligations.RunStateAfterEveryWord := by
  refine ⟨fun w s hr => ?_, fun s t => step_held_run⟩
  have hw := decode_wellFormed w
  have word := encode_decode w
  obtain ⟨t, ht⟩ := exec_next hw s
  have after : t.run = runAfter (decode w) := exec_run hw hr ht
  refine ⟨t, ht, fun op => ⟨?_, rfl⟩, fun op => ⟨?_, rfl⟩, fun op unknown => ⟨?_, rfl, ?_⟩, fun op vect => ?_,
    fun notRti notRes service => ?_⟩
  · rw [decode_rti op] at after word
    rw [after, runAfter, word]
  · rw [decode_res op] at after word
    rw [after, runAfter, word]
  · rw [decode_trap_unknown op unknown] at after word
    rw [after, runAfter, word]
  · exact exec_link hw (by rw [decode_trap_unknown op unknown]; rfl) ht
  · rw [after, decode_halt op vect, runAfter]
  · exact after.trans (runAfter_eq_running hw (by rwa [word]) (by rwa [word]) (by rwa [word]))
end

section
/-! PROOFS. A step whose fetch reads a character word, or the KBSR word of a poll that took a byte
(spec/70_reset_and_hazards.md R222). -/

namespace Sys2Proof.Machine

/-- A word with bits 15 to 9 clear is BR with mask 000 (R88, R91). -/
theorem decode_nop {w : Word} (high : w.toNat < 512) : decode w = .nop (bits w 0 9) := by
  refine (decode_eq_iff rfl).mpr (BitVec.eq_of_toNat_eq ?_)
  rw [encode_nop_toNat, bits_toNat]
  omega

theorem step_nop {s : State} (hr : s.run = .running) (hp : s.trapPhase = .none) (high : s.fetchWord.toNat < 512) :
    step s = .next s.afterFetch := by
  rw [step_between hr hp, decode_nop high]
  exact congrArg Host.Outcome.next (s.afterFetch.branch_zero _)

/-- KBSR's ready word is RTI's with the ignored bits zero (R159). -/
theorem step_kbsrReady {s : State} (hr : s.run = .running) (hp : s.trapPhase = .none)
    (fetched : s.fetchWord = 0x8000) :
    step s = .next (s.afterFetch.setRun (.faulted .rtiUnsupported 0x8000)) := by
  rw [step_between hr hp, fetched, decode_rti (by decide)]
  rfl

end Sys2Proof.Machine
end

section
/-! PROOFS. The statements of spec/70_reset_and_hazards.md. -/

open Sys2Proof Sys2Proof.Machine

/-- Settles O8, by whether the image covers the address. -/
theorem imageLoadPlacesWords : Obligations.ImageLoadPlacesWords := fun m _ _ =>
  ⟨fun covered => loadImage_read_covered covered m, fun bare => loadImage_read_uncovered bare m⟩

/-- Settles O41: the fetch is a `MemRead` at `pc` (`memReadOf_afterRead`), and the word it returns is a NOP's or
RTI's. -/
theorem fetchFromKeyboardRegisters : Obligations.FetchFromKeyboardRegisters := by
  intro s hr hp
  have fetch : MemReadOf s s.pc s.fetchWord s.afterFetch := (memReadOf_afterRead s s.pc).setPc _
  refine ⟨fun hpc hk => ?_, fun hpc b q hk => ?_, fun hpc character => ?_⟩
  · obtain ⟨word, kbsr, mem, kbd⟩ := fetch.notReady hpc hk
    refine ⟨_, step_nop hr hp (by rw [word]; decide), ?_, ?_, kbd, kbsr, mem, ?_⟩
    all_goals simp [hpc, hr]
  · obtain ⟨word, kbsr, kbdr, mem, kbd⟩ := fetch.ready hpc b q hk
    refine ⟨_, step_kbsrReady hr hp word, ?_, rfl, kbd, kbdr, kbsr, mem, ?_⟩
    all_goals simp [hpc]
  · have plain : s.pc ≠ 0xFE00 := by rw [hpc]; decide
    obtain ⟨word, mem, kbd⟩ := fetch.plain plain
    refine ⟨_, step_nop hr hp (by rw [word, hpc]; omega), ?_, ?_, ?_, ?_, kbd, mem, ?_⟩
    all_goals simp [hpc, hr]
end
